-- ==== Sys2Proof/Word.lean ====
section
/-! DEFINITION. The bit-vector types of the machine (00_scope R8, R10) and their plainest conversions. -/

namespace Sys2Proof

/-- One byte: a general register, a timer, a flag register, a memory cell (R8 `V_WIDTH`, `TIMER_WIDTH`, `FR_WIDTH`). -/
abbrev Byte := BitVec 8

/-- One 16-bit word: an instruction word, `I`, `PC`, a stack entry (R8). -/
abbrev Word := BitVec 16

/-- One nibble: "a 4-bit half-byte; opcodes are decoded by nibble position" (R14). -/
abbrev Nibble := BitVec 4

/-- A 12-bit address immediate, the field `nnn` (R101). -/
abbrev Addr12 := BitVec 12

/-- The index of a general register, `V[0]` to `V[15]` (R31). -/
abbrev Reg := Fin 16

/-- The index of a flag register, `FR[0]` to `FR[7]` (R39). -/
abbrev FlagReg := Fin 8

/-- `V[F]`, the machine's only flag (R32). -/
abbrev vF : Reg := 15

/-- A byte or a shorter field padded with zeros to 16 bits, `zext_16` (R10). -/
def zext16 {n : Nat} (v : BitVec n) : Word := v.setWidth 16

end Sys2Proof
end

