-- ==== Sys2Proof/Config.lean ====
section
/-! DEFINITION. The implementation parameters (00_scope R8) and the free values: what the host supplies and no rule fixes. -/

namespace Sys2Proof

/-- `MEM_SIZE`: 4096 bytes, addresses 0x000 to 0xFFF (R8, R70). -/
abbrev Config.memSize : Nat := 4096

/-- `PROG_BASE`: the first writable address, where the program is loaded (R8, R72). -/
abbrev Config.progBase : Nat := 0x200

/-- `MAX_PROGRAM`: 3584 bytes (R8, R341). -/
abbrev Config.maxProgram : Nat := Config.memSize - Config.progBase

/-- `STACK_DEPTH`: 16 entries (R8, R36). -/
abbrev Config.stackDepth : Nat := 16

/-- `HEX_FONT_BASE` (R8). -/
abbrev Config.hexFontBase : Nat := 0x000

/-- `LARGE_FONT_BASE` (R8). -/
abbrev Config.largeFontBase : Nat := 0x080

/-- The default of the parameter `HEX_FONT` (R8, R342): 16 glyphs of 5 bytes, by decision D15. `load` takes any font.
PRESUMED (log entry 6), unsafe for runs from `State.reset`: the source gives the layout only. -/
def Config.hexFont : List Byte :=
  [0xF0, 0x90, 0x90, 0x90, 0xF0] ++ [0x20, 0x60, 0x20, 0x20, 0x70] ++
  [0xF0, 0x10, 0xF0, 0x80, 0xF0] ++ [0xF0, 0x10, 0xF0, 0x10, 0xF0] ++
  [0x90, 0x90, 0xF0, 0x10, 0x10] ++ [0xF0, 0x80, 0xF0, 0x10, 0xF0] ++
  [0xF0, 0x80, 0xF0, 0x90, 0xF0] ++ [0xF0, 0x10, 0x20, 0x40, 0x40] ++
  [0xF0, 0x90, 0xF0, 0x90, 0xF0] ++ [0xF0, 0x90, 0xF0, 0x10, 0xF0] ++
  [0xF0, 0x90, 0xF0, 0x90, 0x90] ++ [0xE0, 0x90, 0xE0, 0x90, 0xE0] ++
  [0xF0, 0x80, 0x80, 0x80, 0xF0] ++ [0xE0, 0x90, 0x90, 0x90, 0xE0] ++
  [0xF0, 0x80, 0xF0, 0x80, 0xF0] ++ [0xF0, 0x80, 0xF0, 0x80, 0x80]

/-- The default of the parameter `LARGE_FONT` (R8, R342): 10 glyphs of 10 bytes, by decision D16. `load` takes any font.
PRESUMED (log entry 6), unsafe for runs from `State.reset`: the source gives the layout only. -/
def Config.largeFont : List Byte :=
  [0x3C, 0x7E, 0xE7, 0xC3, 0xC3, 0xC3, 0xC3, 0xE7, 0x7E, 0x3C] ++
  [0x18, 0x38, 0x58, 0x18, 0x18, 0x18, 0x18, 0x18, 0x18, 0x3C] ++
  [0x3E, 0x7F, 0xC3, 0x06, 0x0C, 0x18, 0x30, 0x60, 0xFF, 0xFF] ++
  [0x3C, 0x7E, 0xC3, 0x03, 0x0E, 0x0E, 0x03, 0xC3, 0x7E, 0x3C] ++
  [0x06, 0x0E, 0x1E, 0x36, 0x66, 0xC6, 0xFF, 0xFF, 0x06, 0x06] ++
  [0xFF, 0xFF, 0xC0, 0xC0, 0xFC, 0xFE, 0x03, 0xC3, 0x7E, 0x3C] ++
  [0x3E, 0x7C, 0xC0, 0xC0, 0xFC, 0xFE, 0xC3, 0xC3, 0x7E, 0x3C] ++
  [0xFF, 0xFF, 0x03, 0x06, 0x0C, 0x18, 0x30, 0x60, 0x60, 0x60] ++
  [0x3C, 0x7E, 0xC3, 0xC3, 0x7E, 0x7E, 0xC3, 0xC3, 0x7E, 0x3C] ++
  [0x3C, 0x7E, 0xC3, 0xC3, 0x7F, 0x3F, 0x03, 0x03, 0x3E, 0x7C]

/-- A value of the parameter `HEX_FONT`: 80 bytes (R8). -/
abbrev HexFont := Vector Byte 80

/-- A value of the parameter `LARGE_FONT`: 100 bytes (R8). -/
abbrev LargeFont := Vector Byte 100

/-- `Config.hexFont` as an argument of `load`. -/
def Config.defaultHexFont : HexFont := ⟨⟨Config.hexFont⟩, rfl⟩

/-- `Config.largeFont` as an argument of `load`. -/
def Config.defaultLargeFont : LargeFont := ⟨⟨Config.largeFont⟩, rfl⟩

/-- The default of the parameter `KEY_CODES` (R8, D10), the codes `WaitKey()` may return: 0 to 15. `load` takes any.
PRESUMED (log entry 4), unsafe for runs from `State.reset` if the host returns another code. -/
def Config.keyCodes : List Byte :=
  [0x0, 0x1, 0x2, 0x3, 0x4, 0x5, 0x6, 0x7] ++ [0x8, 0x9, 0xA, 0xB, 0xC, 0xD, 0xE, 0xF]

/-- FREE VALUE (log entry 3), safe: the answer of `RandomByte()`, "any value 0..255" (R313), to the `n`-th free input. -/
opaque Config.randomByte : Nat → Byte

/-- FREE VALUE (log entry 3), safe: the answer of `KeyPressed(k)`, "a free Boolean" (R312), to the `n`-th free input. -/
opaque Config.keyPressed : Nat → Byte → Bool

/-- FREE VALUE (log entry 3), safe: the answer of `WaitKey()` (R312) to the `n`-th free input: no key, or which of
the codes of `KEY_CODES`, counted round from the first. -/
opaque Config.keyChoice : Nat → Option Nat

/-- FREE VALUE (log entry 5), safe: how many times the host calls `Tick` after the `advance` that takes the `n`-th free
input and before the next one; "a proof must hold for every interleaving of `advance` and `Tick`" (R347). -/
opaque Config.ticksAfter : Nat → Nat

end Sys2Proof
end

