-- ==== Sys2Proof/Machine/State.lean ====
section
/-! DEFINITION. The state of the machine (10_state R30 to R49), plain data, and the state after reset. -/

namespace Sys2Proof.Machine

/-- The fault kinds, with the information each carries (60_exceptions R300, R302). Raised by `raise`, which leaves the
rest of the state as it was (R301). -/
inductive FaultKind where
  /-- Code 1: the bytes `b0 b1` at `pc` match no decode rule (R105). -/
  | invalidOpcode (pc : Word) (b0 b1 : Byte)
  /-- Code 2: 2nnn with 16 entries held (R131). -/
  | stackOverflow (pc : Word)
  /-- Code 3: 00EE with an empty stack (R132). -/
  | stackUnderflow (pc : Word)
  /-- Code 4: 00Cn with odd `n` in low resolution (R263). -/
  | invalidScroll (pc : Word) (n : Nibble)
  /-- Code 5: Fx30 with `V[x] > 9` (R203). -/
  | invalidGlyphIndex (pc : Word) (v : Byte)
  /-- Code 6: Fx75 or Fx85 with `x > 7` (R207, R208). -/
  | invalidFlagRegisterRange (pc : Word) (x : Reg)
  /-- Code 7: a fetch with `PC > 0xFFE` (R111). -/
  | pcOutOfRange (pc : Word)
  /-- Code 8: a fetch with `PC` odd (R111). -/
  | misalignedPc (pc : Word)
  /-- Code 9: Fx33 or Fx55 with a target below 0x200; `addr` is the first such target (R72, R302). -/
  | reservedMemoryWrite (pc : Word) (addr : Nat)
  deriving DecidableEq, Repr

/-- The numeric codes of R300. -/
def FaultKind.code (f : FaultKind) : Nat :=
  match f with
  | .invalidOpcode _ _ _ => 1
  | .stackOverflow _ => 2
  | .stackUnderflow _ => 3
  | .invalidScroll _ _ => 4
  | .invalidGlyphIndex _ _ => 5
  | .invalidFlagRegisterRange _ _ => 6
  | .pcOutOfRange _ => 7
  | .misalignedPc _ => 8
  | .reservedMemoryWrite _ _ => 9

/-- The run state (R44). -/
inductive Status where
  /-- The only state `advance` has a step from. -/
  | running
  /-- Entered only by 00FD (R134); final. -/
  | halted
  /-- Entered by the fault `f` (R301); never final. -/
  | faulted (f : FaultKind)
  deriving DecidableEq, Repr

/-- The outcome of one call of `advance` (R112). -/
inductive AdvanceResult where
  /-- `Continue`. -/
  | continued
  /-- `Halted`. -/
  | halted
  /-- `Waiting`: Fx0A with no key. -/
  | waiting
  /-- `Fault f`. -/
  | faulted (f : FaultKind)
  deriving DecidableEq, Repr

/-- One row of the frame buffer: 128 one-bit pixels, column `c` at bit `c` (R41; log entry 12, DESIGN CHOICE, safe). -/
abbrev Row := BitVec 128

/-- The frame buffer `scr`: 64 rows, row 0 first (R41). -/
abbrev Screen := Vector Row 64

/-- An output event (R310, R311). -/
inductive Event where
  /-- `Frame(scr)`, a copy of the whole buffer. -/
  | frame (scr : Screen)
  /-- `Sound(b)`. -/
  | sound (isPlaying : Bool)
  deriving DecidableEq, Repr

/-- Memory: the cells that differ from what `init` leaves, addresses strictly rising (R70; `Memory.wf` in Ops). -/
abbrev Memory := List Host.Cell

/-- Why the machine has no step. A spec fault is not one of these: it is a NEXT state whose status is `faulted`
(R301, R112; log entry 1). -/
inductive Fault where
  /-- Raised by `step` alone: `advance` called when `status` is `Halted`, which has no step (R113). Safe (log entry 2):
  the machine stops where the spec gives no behaviour. -/
  | halted
  /-- Raised by `step` alone: `advance` called when `status` is `Faulted f`, which has no step (R113). Safe
  (log entry 2). -/
  | faulted (f : FaultKind)
  deriving DecidableEq, Repr

/-- What is refused. -/
inductive Refusal where
  /-- Raised by `exec` alone, for an instruction without a meaning yet. Safe: nothing follows from it. -/
  | notModelled (mnemonic : String)
  /-- Raised by `load` alone: `init` refuses a program over 3584 bytes (R341). Safe: "no state and no run". -/
  | programTooLong (size : Nat)
  deriving DecidableEq, Repr

/-- The state: the record of R30, the parameter `KEY_CODES` of the step (R8), then four fields of the model's own (log
entries 3, 5 and 13). -/
structure State where
  /-- `V[0..15]` (R31). -/
  v : Vector Byte 16
  /-- `I` (R34). -/
  i : Word
  /-- `PC` (R35; log entry 10). -/
  pc : Word
  /-- The number of stack entries held, `SC + 1` (R36; log entry 11). -/
  depth : Fin 17
  /-- `stack[0..15]`, stale entries kept (R36, R37). -/
  stack : Vector Word 16
  /-- `D` (R38). -/
  delay : Byte
  /-- `S` (R38). -/
  sound : Byte
  /-- `FR[0..7]` (R39). -/
  fr : Vector Byte 8
  /-- `ram` (R40, R70). -/
  mem : Memory
  /-- `scr` (R41). -/
  scr : Screen
  /-- `largeScreen`: true is high resolution (R42). -/
  largeScreen : Bool
  /-- `superMode`, constant after load (R43). -/
  superMode : Bool
  /-- The parameter `KEY_CODES` of the step relation (R8), constant after load (log entry 4). -/
  keyCodes : List Byte
  /-- `status` (R44). -/
  status : Status
  /-- The model's own: every event emitted so far, oldest first (R310, R311). -/
  events : List Event
  /-- The model's own: the outcome of the last `advance` (R112), none before the first. -/
  lastResult : Option AdvanceResult
  /-- The model's own: the index of the next free host input (R312, R313, R347). -/
  inputs : Nat
  /-- The model's own: how many calls of `Tick` the host makes before its next call of `advance` (R315; log entry 5). -/
  ticksDue : Nat
  deriving DecidableEq, Repr

/-- What every instruction answers. -/
abbrev Result := Host.Outcome State Fault Refusal

/-- The state of R49: `init` (R340) of the empty program. `superMode` is load's argument; here false (log entry 7,
DESIGN CHOICE, unsafe). `I`, `D`, `S`, `FR`, `stack`, `scr`, `largeScreen`: the spec's decisions D12, D13 (log entry 8,
DESIGN CHOICE, unsafe). `keyCodes`: the default (log entry 4, PRESUMED, unsafe). `inputs`, `ticksDue`, `lastResult`: DESIGN
CHOICE (log entries 3, 5, 13). -/
def State.reset : State where
  v := Vector.replicate 16 0
  i := 0
  pc := 0x200
  depth := 0
  stack := Vector.replicate 16 0
  delay := 0
  sound := 0
  fr := Vector.replicate 8 0
  mem := []
  scr := Vector.replicate 64 0
  largeScreen := false
  superMode := false
  keyCodes := Config.keyCodes
  status := .running
  events := []
  lastResult := none
  inputs := 0
  ticksDue := 0

end Sys2Proof.Machine
end

