-- ==== Sys2Proof/Machine/Ops.lean ====
section
/-! DEFINITION. The named operations over memory, registers, stack, program counter, faults, events and free inputs. -/

namespace Sys2Proof.Machine

/-- What a byte reads as until something writes it: what `init` leaves there (R340, R342): the two default fonts (log
entry 6; `load` writes another font over them), 0 elsewhere (D14; log entry 9, DESIGN CHOICE, unsafe). -/
def initialByte (a : Nat) : Byte :=
  if a < Config.hexFontBase + Config.hexFont.length then Config.hexFont.getD (a - Config.hexFontBase) 0
  else if Config.largeFontBase ≤ a ∧ a < Config.largeFontBase + Config.largeFont.length then
    Config.largeFont.getD (a - Config.largeFontBase) 0
  else 0

/-- The cell listed at an address, if one is. -/
def Memory.lookup (m : Memory) (a : Nat) : Option Byte :=
  match m with
  | [] => none
  | (b, w) :: rest => if b = a then some w else Memory.lookup rest a

/-- `MemRead(a, 1)` (R71). -/
def Memory.read (m : Memory) (a : Nat) : Byte := (Memory.lookup m a).getD (initialByte a)

/-- Puts a byte in its place in the canonical form; the byte an unlisted address reads as is not listed. -/
def Memory.insertCell (m : Memory) (a : Nat) (v : Byte) : Memory :=
  match m with
  | [] => if v = initialByte a then [] else [(a, v)]
  | (b, w) :: rest =>
    if a < b then (if v = initialByte a then (b, w) :: rest else (a, v) :: (b, w) :: rest)
    else if a = b then (if v = initialByte a then rest else (a, v) :: rest)
    else (b, w) :: Memory.insertCell rest a v

/-- `MemWrite(a, 1, v)` (R72), without the check of reserved addresses, which an instruction makes first. An address
past 0xFFF is never formed (R78, R111); a write there would change nothing (log entry 18, DESIGN CHOICE, safe). -/
def Memory.write (m : Memory) (a : Nat) (v : Byte) : Memory :=
  if a < Config.memSize then Memory.insertCell m a v else m

/-- Writes several bytes in order (R75). -/
def Memory.writeCells (m : Memory) (cells : List Host.Cell) : Memory :=
  cells.foldl (fun m c => Memory.write m c.1 c.2) m

/-- The canonical form from address `lo` up: addresses strictly rising and below 4096, no cell at its initial value. -/
def Memory.wfFrom (lo : Nat) (m : Memory) : Bool :=
  match m with
  | [] => true
  | (a, v) :: rest =>
    decide (lo ≤ a) && decide (a < Config.memSize) && (v != initialByte a) && Memory.wfFrom (a + 1) rest

/-- The canonical form of memory. -/
def Memory.wf (m : Memory) : Bool := Memory.wfFrom 0 m

/-- `V[x]` (R11, R31). -/
def State.getV (s : State) (x : Reg) : Byte := s.v[x.val]

/-- `V[x] <- b` (R11, R31). -/
def State.setV (s : State) (x : Reg) (b : Byte) : State := { s with v := s.v.set x.val b x.isLt }

/-- `FR[k]` (R39). -/
def State.getFR (s : State) (k : FlagReg) : Byte := s.fr[k.val]

/-- `FR[k] <- b` (R39). -/
def State.setFR (s : State) (k : FlagReg) (b : Byte) : State := { s with fr := s.fr.set k.val b k.isLt }

/-- `V[x] <- r`, then `V[F] <- f`: the result first, the flag last (R33, R170). -/
def State.setResultFlag (s : State) (x : Reg) (r f : Byte) : State := (s.setV x r).setV vF f

/-- `SC` (R36): the index of the top entry, -1 when empty. -/
def State.sc (s : State) : Int := (s.depth.val : Int) - 1

/-- `Push(v)` (R37). -/
def push (v : Word) (s : State) : Except FaultKind State :=
  if h : s.depth.val < Config.stackDepth then
    .ok { s with stack := s.stack.set s.depth.val v h, depth := ⟨s.depth.val + 1, Nat.succ_lt_succ h⟩ }
  else .error (.stackOverflow s.pc)

/-- `Pop()` (R37): the top entry, and the state with the cursor moved down. -/
def pop (s : State) : Except FaultKind (Word × State) :=
  if 0 < s.depth.val then
    .ok (s.stack[s.depth.val - 1]'(by have := s.depth.isLt; omega),
      { s with depth := ⟨s.depth.val - 1, by have := s.depth.isLt; omega⟩ })
  else .error (.stackUnderflow s.pc)

/-- TAKING A FAULT, `raise F(info)` (R13, R301): `status <- Faulted f`, outcome `Fault f`, every other field as it was.
There is no handler and no return from one (R305, R306). Log entry 1 (DESIGN CHOICE, safe): a NEXT state. -/
def raise (f : FaultKind) (s : State) : Result :=
  .next { s with status := .faulted f, lastResult := some (.faulted f) }

/-- The state at the end of an instruction that did not write `PC`: `PC += 2`, outcome Continue (R111). -/
def completed (s : State) : State := { s with pc := s.pc + 2, lastResult := some .continued }

/-- The end of an instruction that did not write `PC` (R111). -/
def finish (s : State) : Result := .next (completed s)

/-- `PC <- t`, which suppresses the increment (R11, R111; log entry 15), outcome Continue. -/
def jumpTo (t : Word) (s : State) : Result := .next { s with pc := t, lastResult := some .continued }

/-- `if taken then Skip()` (R150): `PC += 2` besides the normal increment. -/
def skipIf (taken : Bool) (s : State) : Result :=
  finish { s with pc := if taken then s.pc + 2 else s.pc }

/-- `status <- Halted; return Halted` (R134): no increment. -/
def halt (s : State) : Result := .next { s with status := .halted, lastResult := some .halted }

/-- `hold` (R13, R246): outcome Waiting, nothing else changes (log entry 16). -/
def holding (s : State) : State := { s with lastResult := some .waiting }

/-- `emit e` (R13): appends an output event. -/
def emit (e : Event) (s : State) : State := { s with events := s.events ++ [e] }

/-- `MemWrite` of several bytes by an instruction: every target is checked first, and the first one below 0x200 raises
`ReservedMemoryWrite` before any byte is written (R72, R302); else the bytes are written and `after`, which gives the
rest of the new state, takes the new memory. -/
def storeOrRaise (cells : List Host.Cell) (after s : State) : Result :=
  match cells.find? (fun c => decide (c.1 < Config.progBase)) with
  | some c => raise (.reservedMemoryWrite s.pc c.1) s
  | none => finish { after with mem := Memory.writeCells s.mem cells }

/-- The cells of a run of bytes placed from an address up (R75). -/
def cellsFrom (base : Nat) (bytes : List Byte) : List Host.Cell := bytes.zipIdx.map fun p => (base + p.2, p.1)

/-- One free host input has been taken (R312, R313). -/
def State.takeInput (s : State) : State := { s with inputs := s.inputs + 1 }

/-- `RandomByte()` (R313): free (log entry 3). -/
def State.randomByte (s : State) : Byte := Config.randomByte s.inputs

/-- `KeyPressed(k)` (R312): free (log entry 3). -/
def State.keyPressed (s : State) (k : Byte) : Bool := Config.keyPressed s.inputs k

/-- `WaitKey()` (R312): none, or some code of `KEY_CODES`; which is free (log entries 3 and 4). -/
def State.waitKey (s : State) : Option Byte :=
  match Config.keyChoice s.inputs with
  | none => none
  | some c => s.keyCodes[c % s.keyCodes.length]?

end Sys2Proof.Machine
end

