-- ==== Sys2Proof/Machine/Flags.lean ====
section
/-! DEFINITION. The values written to `V[F]`, the machine's only flag (10_state R32). -/

namespace Sys2Proof.Machine

/-- "A flag write always writes 0 or 1" (R33). -/
def flagByte (b : Bool) : Byte := if b then 1 else 0

/-- Carry of 8xy4: 1 iff `vx + vy >= 256` (R177). -/
def carryFlag (a b : Byte) : Byte := flagByte (decide (256 ≤ a.toNat + b.toNat))

/-- No borrow of `a - b`: 1 iff `a >= b` (R178, R180). -/
def noBorrowFlag (a b : Byte) : Byte := flagByte (decide (b.toNat ≤ a.toNat))

/-- The bit 8xy6 shifts out: bit 0 (R179). -/
def lowBitFlag (src : Byte) : Byte := flagByte (src.getLsbD 0)

/-- The bit 8xyE shifts out: bit 7 (R181). -/
def highBitFlag (src : Byte) : Byte := flagByte (src.getLsbD 7)

/-- Collision of a draw (R268, R269). -/
def collisionFlag (collided : Bool) : Byte := flagByte collided

end Sys2Proof.Machine
end

