-- ==== Sys2Proof/Machine/Operands.lean ====
section
/-! DEFINITION. The operand forms: addresses from `I`, register blocks, glyph addresses, decimal digits, sources of shifts. -/

namespace Sys2Proof.Machine

/-- `EA(k) = (I + k) mod 4096` (R12, R78). -/
def ea (s : State) (k : Nat) : Nat := (s.i.toNat + k) % Config.memSize

/-- The byte at `EA(k)`. -/
def byteAt (s : State) (k : Nat) : Byte := Memory.read s.mem (ea s k)

/-- The registers `V[0]` to `V[15]`, in order. -/
def allRegs : List Reg := [0, 1, 2, 3, 4, 5, 6, 7, 8, 9, 10, 11, 12, 13, 14, 15]

/-- The flag registers `FR[0]` to `FR[7]`, in order. -/
def allFlagRegs : List FlagReg := [0, 1, 2, 3, 4, 5, 6, 7]

/-- The registers of the block `V[0..x]`, in order (R102). -/
def blockRegs (x : Reg) : List Reg := allRegs.filter (fun r => decide (r.val ≤ x.val))

/-- The flag registers of the block `FR[0..x]`, in order (R207, R208). -/
def blockFlagRegs (x : Reg) : List FlagReg := allFlagRegs.filter (fun k => decide (k.val ≤ x.val))

/-- The general register with a flag register's number (R207, R208). -/
def regOfFlagReg (k : FlagReg) : Reg := ⟨k.val, Nat.lt_trans k.isLt (by decide)⟩

/-- The bytes of Fx55: `V[i]` at `EA(i)` for `i` in 0 to `x` (R205). -/
def blockCells (s : State) (x : Reg) : List Host.Cell := (blockRegs x).map fun r => (ea s r.val, s.getV r)

/-- The bytes of Fx33: hundreds, tens and ones of `b` at `EA(0)`, `EA(1)`, `EA(2)` (R204). -/
def decimalCells (s : State) (b : Byte) : List Host.Cell :=
  [(ea s 0, BitVec.ofNat 8 (b.toNat / 100)),
   (ea s 1, BitVec.ofNat 8 (b.toNat / 10 % 10)),
   (ea s 2, BitVec.ofNat 8 (b.toNat % 10))]

/-- The state after `for i in 0..x: V[i] <- MemRead(EA(i), 1)` (R206). -/
def loadBlock (s : State) (x : Reg) : State :=
  (blockRegs x).foldl (fun t r => t.setV r (byteAt s r.val)) s

/-- The state after `for i in 0..x: FR[i] <- V[i]` (R207). -/
def saveFlagBlock (s : State) (x : Reg) : State :=
  (blockFlagRegs x).foldl (fun t k => t.setFR k (s.getV (regOfFlagReg k))) s

/-- The state after `for i in 0..x: V[i] <- FR[i]` (R208). -/
def restoreFlagBlock (s : State) (x : Reg) : State :=
  (blockFlagRegs x).foldl (fun t k => t.setV (regOfFlagReg k) (s.getFR k)) s

/-- `I` after Fx55 and Fx65: `(I + x) mod 65536` unless `superMode` (R205, R206). -/
def blockAdvancedI (s : State) (x : Reg) : Word :=
  if s.superMode then s.i else s.i + BitVec.ofNat 16 x.val

/-- The address of the hex glyph of the low nibble of `b` (R202). -/
def hexGlyph (b : Byte) : Word := BitVec.ofNat 16 (Config.hexFontBase + 5 * (b.toNat % 16))

/-- The address of the large glyph of the digit `b` (R203). -/
def largeGlyph (b : Byte) : Word := BitVec.ofNat 16 (Config.largeFontBase + 10 * b.toNat)

/-- The source of 8xy6 and 8xyE: `V[x]` in superMode, else `V[y]` (R179, R181). -/
def shiftSource (s : State) (x y : Reg) : Byte := if s.superMode then s.getV x else s.getV y

end Sys2Proof.Machine
end

