-- ==== Sys2Proof/Machine/Arithmetic.lean ====
section
/-! DEFINITION. Arithmetic and logic (42_arithmetic R170 to R182): operands first, result, flag last. -/

namespace Sys2Proof.Machine

/-- 6xnn `LD Vx, nn` (R171). -/
def execLdImm (x : Reg) (nn : Byte) (s : State) : Result := finish (s.setV x nn)

/-- 7xnn `ADD Vx, nn` (R172): mod 256, no flag. -/
def execAddImm (x : Reg) (nn : Byte) (s : State) : Result := finish (s.setV x (s.getV x + nn))

/-- 8xy0 `LD Vx, Vy` (R173). -/
def execLdReg (x y : Reg) (s : State) : Result := finish (s.setV x (s.getV y))

/-- 8xy1 `OR Vx, Vy` (R174). -/
def execOrReg (x y : Reg) (s : State) : Result := finish (s.setV x (s.getV x ||| s.getV y))

/-- 8xy2 `AND Vx, Vy` (R175). -/
def execAndReg (x y : Reg) (s : State) : Result := finish (s.setV x (s.getV x &&& s.getV y))

/-- 8xy3 `XOR Vx, Vy` (R176). -/
def execXorReg (x y : Reg) (s : State) : Result := finish (s.setV x (s.getV x ^^^ s.getV y))

/-- 8xy4 `ADD Vx, Vy` (R177): `V[F]` is the carry. -/
def execAddReg (x y : Reg) (s : State) : Result :=
  finish (s.setResultFlag x (s.getV x + s.getV y) (carryFlag (s.getV x) (s.getV y)))

/-- 8xy5 `SUB Vx, Vy` (R178): `V[F]` is 1 iff no borrow. -/
def execSub (x y : Reg) (s : State) : Result :=
  finish (s.setResultFlag x (s.getV x - s.getV y) (noBorrowFlag (s.getV x) (s.getV y)))

/-- 8xy6 `SHR Vx, Vy` (R179): `V[F]` is bit 0 of the source. -/
def execShr (x y : Reg) (s : State) : Result :=
  finish (s.setResultFlag x (shiftSource s x y >>> 1) (lowBitFlag (shiftSource s x y)))

/-- 8xy7 `SUBN Vx, Vy` (R180): `V[F]` is 1 iff no borrow. -/
def execSubn (x y : Reg) (s : State) : Result :=
  finish (s.setResultFlag x (s.getV y - s.getV x) (noBorrowFlag (s.getV y) (s.getV x)))

/-- 8xyE `SHL Vx, Vy` (R181): `V[F]` is bit 7 of the source. -/
def execShl (x y : Reg) (s : State) : Result :=
  finish (s.setResultFlag x (shiftSource s x y <<< 1) (highBitFlag (shiftSource s x y)))

end Sys2Proof.Machine
end

