-- ==== Sys2Proof/Machine/ControlFlow.lean ====
section
/-! DEFINITION. Control flow (40_control_flow R130 to R136). -/

namespace Sys2Proof.Machine

/-- 1nnn `JP nnn` (R130): `PC <- nnn`. -/
def execJp (nnn : Addr12) (s : State) : Result := jumpTo (zext16 nnn) s

/-- 2nnn `CALL nnn` (R131): pushes its own address, then `PC <- nnn`. -/
def execCall (nnn : Addr12) (s : State) : Result :=
  match push s.pc s with
  | .error f => raise f s
  | .ok t => jumpTo (zext16 nnn) t

/-- 00EE `RET` (R132, C3): `PC <- Pop() + 2`. -/
def execRet (s : State) : Result :=
  match pop s with
  | .error f => raise f s
  | .ok (r, t) => jumpTo (r + 2) t

/-- Bnnn `JP V0, nnn` (R133): `PC <- nnn + V[0]`, not reduced mod 4096. -/
def execJpV0 (nnn : Addr12) (s : State) : Result := jumpTo (zext16 nnn + zext16 (s.getV 0)) s

/-- 00FD `EXIT` (R134). -/
def execExit (s : State) : Result := halt s

end Sys2Proof.Machine
end

