-- ==== Sys2Proof/Machine/Screen.lean ====
section
/-! DEFINITION. The frame buffer: pixels, scrolls, sprites (46_display R260 to R272). -/

namespace Sys2Proof.Machine

/-- A physical pixel: its row (0 to 63, top first) and its column (0 to 127, left first) (R41). -/
abbrev Pixel := Fin 64 × Fin 128

/-- `scr[r][c]` (R41). -/
def pixelAt (scr : Screen) (p : Pixel) : Bool := scr[p.1.val].getLsbD p.2.val

/-- The buffer with one pixel inverted. -/
def togglePixel (scr : Screen) (p : Pixel) : Screen :=
  scr.set p.1.val (scr[p.1.val] ^^^ BitVec.twoPow 128 p.2.val) p.1.isLt

/-- A buffer from its rows. -/
def screenOfRows (row : Nat → Row) : Screen :=
  ⟨⟨(List.range 64).map row⟩, by simp⟩

/-- The row with number `r`, all false outside the buffer. -/
def rowAt (scr : Screen) (r : Nat) : Row := if h : r < 64 then scr[r] else 0

/-- The cleared buffer (R262). -/
def blankScreen : Screen := Vector.replicate 64 0

/-- `scr[r][c] <- if r >= n then old[r - n][c] else false` (R263). -/
def scrollDown (n : Nat) (scr : Screen) : Screen :=
  screenOfRows fun r => if n ≤ r then rowAt scr (r - n) else 0

/-- `scr[r][c] <- if c >= k then old[r][c - k] else false` (R264): column `c` is bit `c`. -/
def scrollRight (k : Nat) (scr : Screen) : Screen := screenOfRows fun r => rowAt scr r <<< k

/-- `scr[r][c] <- if c + k <= 127 then old[r][c + k] else false` (R265). -/
def scrollLeft (k : Nat) (scr : Screen) : Screen := screenOfRows fun r => rowAt scr r >>> k

/-- `XorPixel(r, c)` (R261) over the buffer and `collided`. -/
def xorPixel (d : Screen × Bool) (p : Pixel) : Screen × Bool :=
  (togglePixel d.1 p, d.2 || pixelAt d.1 p)

/-- `XorPixel` of each pixel in order, `collided` false at the start (R261). -/
def xorPixels (scr : Screen) (ps : List Pixel) : Screen × Bool := ps.foldl xorPixel (scr, false)

/-- High resolution: the sprite bit `(r, c)` is the one pixel `((vy + r) mod 64, (vx + c) mod 128)` (R260, R268). -/
def plotHigh (vx vy : Byte) (r c : Nat) : List Pixel :=
  [(Fin.ofNat 64 (vy.toNat + r), Fin.ofNat 128 (vx.toNat + c))]

/-- Low resolution: the sprite bit `(r, c)` is the 2 x 2 block at rows `2*(vy + r) mod 64 + dr` and columns
`2*(vx + c) mod 128 + dc` (R260, R268). -/
def plotLow (vx vy : Byte) (r c : Nat) : List Pixel :=
  [0, 1].flatMap fun dr => [0, 1].map fun dc =>
    (Fin.ofNat 64 (2 * (vy.toNat + r) % 64 + dr), Fin.ofNat 128 (2 * (vx.toNat + c) % 128 + dc))

/-- The pixels a sprite of `n` rows, each `w` bits wide, toggles, in the order of R268's loops; the highest bit of a
row is its leftmost pixel (R268, R269). -/
def spritePixels {w : Nat} (n : Nat) (row : Nat → BitVec w) (plot : Nat → Nat → List Pixel) : List Pixel :=
  (List.range n).flatMap fun r => (List.range w).flatMap fun c =>
    if (row r).getLsbD (w - 1 - c) then plot r c else []

/-- `scr` replaced, then `emit Frame(scr)` (R270, R311). -/
def showFrame (scr : Screen) (s : State) : State := emit (.frame scr) { s with scr := scr }

end Sys2Proof.Machine
end

