-- ==== Sys2Proof/Machine/Display.lean ====
section
/-! DEFINITION. Display and collision (46_display R260 to R273). -/

namespace Sys2Proof.Machine

/-- 00E0 `CLS` (R262). -/
def execCls (s : State) : Result := finish (showFrame blankScreen s)

/-- 00Cn `SCD n` (R263): odd `n` in low resolution raises `InvalidScroll`. -/
def execScd (n : Nibble) (s : State) : Result :=
  if s.largeScreen = false ∧ n.toNat % 2 = 1 then raise (.invalidScroll s.pc n) s
  else finish (showFrame (scrollDown n.toNat s.scr) s)

/-- 00FB `SCR` (R264): right by 4 physical columns. -/
def execScr (s : State) : Result := finish (showFrame (scrollRight 4 s.scr) s)

/-- 00FC `SCL` (R265): left by 4 physical columns. -/
def execScl (s : State) : Result := finish (showFrame (scrollLeft 4 s.scr) s)

/-- 00FE `LOW` (R266): no frame event. -/
def execLow (s : State) : Result := finish { s with largeScreen := false }

/-- 00FF `HIGH` (R267): no frame event. -/
def execHigh (s : State) : Result := finish { s with largeScreen := true }

/-- The pixels Dxyn toggles: 8 columns, `n` rows, the byte of row `r` at `EA(r)` (R268). -/
def drwPixels (x y : Reg) (n : Nibble) (s : State) : List Pixel :=
  spritePixels n.toNat (byteAt s)
    (if s.largeScreen then plotHigh (s.getV x) (s.getV y) else plotLow (s.getV x) (s.getV y))

/-- The pixels Dxy0 toggles in high resolution: 16 columns, 16 rows, row `r` the bytes at `EA(2r)` and `EA(2r + 1)`,
left then right (R269). -/
def drw16Pixels (x y : Reg) (s : State) : List Pixel :=
  spritePixels (w := 16) 16 (fun r => byteAt s (2 * r) ++ byteAt s (2 * r + 1)) (plotHigh (s.getV x) (s.getV y))

/-- A draw of the pixels `ps`: XOR, then `V[F]` the collision, then the frame event (R268, R269). Where R272 says otherwise
of the collision, R268 and R271 are followed (log entry 22, DEDUCED, safe). -/
def drawPixels (ps : List Pixel) (s : State) : State :=
  showFrame (xorPixels s.scr ps).1 (s.setV vF (collisionFlag (xorPixels s.scr ps).2))

/-- Dxyn `DRW Vx, Vy, n` (R268). -/
def execDrw (x y : Reg) (n : Nibble) (s : State) : Result := finish (drawPixels (drwPixels x y n s) s)

/-- Dxy0 `DRW Vx, Vy, 0` (R269, C6): in low resolution nothing but `V[F] <- 0`. -/
def execDrw16 (x y : Reg) (s : State) : Result :=
  if s.largeScreen then finish (drawPixels (drw16Pixels x y s) s)
  else finish (s.setV vF 0)

end Sys2Proof.Machine
end

