-- ==== Sys2Proof/Machine/MemoryTransfer.lean ====
section
/-! DEFINITION. Memory transfer (43_memory_transfer R200 to R209). -/

namespace Sys2Proof.Machine

/-- Annn `LD I, nnn` (R200). -/
def execLdI (nnn : Addr12) (s : State) : Result := finish { s with i := zext16 nnn }

/-- Fx1E `ADD I, Vx` (R201): mod 2^16, no flag. -/
def execAddI (x : Reg) (s : State) : Result := finish { s with i := s.i + zext16 (s.getV x) }

/-- Fx29 `LD F, Vx` (R202). -/
def execLdF (x : Reg) (s : State) : Result := finish { s with i := hexGlyph (s.getV x) }

/-- Fx30 `LD HF, Vx` (R203): the full byte is tested. -/
def execLdHf (x : Reg) (s : State) : Result :=
  if 9 < (s.getV x).toNat then raise (.invalidGlyphIndex s.pc (s.getV x)) s
  else finish { s with i := largeGlyph (s.getV x) }

/-- Fx33 `LD B, Vx` (R204). -/
def execLdB (x : Reg) (s : State) : Result := storeOrRaise (decimalCells s (s.getV x)) s s

/-- Fx55 `LD [I], Vx` (R205): the addresses use `I` as it was, then `I` moves by `x` unless superMode. -/
def execLdMemV (x : Reg) (s : State) : Result :=
  storeOrRaise (blockCells s x) { s with i := blockAdvancedI s x } s

/-- Fx65 `LD Vx, [I]` (R206): the addresses use `I` as it was, then `I` moves by `x` unless superMode. -/
def execLdVMem (x : Reg) (s : State) : Result :=
  finish { loadBlock s x with i := blockAdvancedI s x }

/-- Fx75 `LD R, Vx` (R207). -/
def execLdRV (x : Reg) (s : State) : Result :=
  if 7 < x.val then raise (.invalidFlagRegisterRange s.pc x) s else finish (saveFlagBlock s x)

/-- Fx85 `LD Vx, R` (R208). With `x = F` it faults, as R208 says of every `x` above 7, though R32 lists it among the
writes of `V[F]` (log entry 23, DESIGN CHOICE, unsafe). -/
def execLdVR (x : Reg) (s : State) : Result :=
  if 7 < x.val then raise (.invalidFlagRegisterRange s.pc x) s else finish (restoreFlagBlock s x)

end Sys2Proof.Machine
end

