-- ==== Sys2Proof/Machine/RandomKey.lean ====
section
/-! DEFINITION. Random and key wait (45_random_keyboard R245 to R247): each takes one free input. -/

namespace Sys2Proof.Machine

/-- Cxnn `RND Vx, nn` (R245): the random byte is free (log entry 3). -/
def execRnd (x : Reg) (nn : Byte) (s : State) : Result := finish (s.takeInput.setV x (s.randomByte &&& nn))

/-- Fx0A `LD Vx, K` (R246): with no key the step holds, outcome Waiting, `PC` still on this Fx0A (log entry 16); with a
key `V[x]` takes its code. Which, is free (log entries 3 and 4). -/
def execLdVxK (x : Reg) (s : State) : Result :=
  .next (match s.waitKey with
    | none => holding s.takeInput
    | some k => completed (s.takeInput.setV x k))

end Sys2Proof.Machine
end

