-- ==== Sys2Proof/Machine/Skip.lean ====
section
/-! DEFINITION. Conditional skips (41_conditional_skip R150 to R157). -/

namespace Sys2Proof.Machine

/-- 3xnn `SE Vx, nn` (R151). -/
def execSeImm (x : Reg) (nn : Byte) (s : State) : Result := skipIf (decide (s.getV x = nn)) s

/-- 4xnn `SNE Vx, nn` (R152). -/
def execSneImm (x : Reg) (nn : Byte) (s : State) : Result := skipIf (decide (s.getV x ≠ nn)) s

/-- 5xy0 `SE Vx, Vy` (R153). -/
def execSeReg (x y : Reg) (s : State) : Result := skipIf (decide (s.getV x = s.getV y)) s

/-- 9xy0 `SNE Vx, Vy` (R154). -/
def execSneReg (x y : Reg) (s : State) : Result := skipIf (decide (s.getV x ≠ s.getV y)) s

/-- Ex9E `SKP Vx` (R155): the key answer is free (log entry 3). -/
def execSkp (x : Reg) (s : State) : Result := skipIf (s.keyPressed (s.getV x)) s.takeInput

/-- ExA1 `SKNP Vx` (R156): the key answer is free (log entry 3). -/
def execSknp (x : Reg) (s : State) : Result := skipIf (!s.keyPressed (s.getV x)) s.takeInput

end Sys2Proof.Machine
end

