-- ==== Sys2Proof/Machine/TimerSound.lean ====
section
/-! DEFINITION. Timer and sound (44_timer_sound R230 to R233), and the host's `Tick` (60_exceptions R309). -/

namespace Sys2Proof.Machine

/-- Fx07 `LD Vx, DT` (R230). -/
def execLdVxDt (x : Reg) (s : State) : Result := finish (s.setV x s.delay)

/-- Fx15 `LD DT, Vx` (R231). -/
def execLdDtVx (x : Reg) (s : State) : Result := finish { s with delay := s.getV x }

/-- Fx18 `LD ST, Vx` (R232): emits `Sound(S != 0)`. -/
def execLdStVx (x : Reg) (s : State) : Result :=
  finish (emit (.sound (s.getV x != 0)) { s with sound := s.getV x })

/-- One Tick of a timer: "if D > 0 then D <- D - 1" (R309); a timer at 0 stays at 0. -/
def tickTimer (t : Byte) : Byte := if t = 0 then 0 else t - 1

/-- The events after one Tick: `Sound(false)` when it takes `S` from 1 to 0 (R309, R310). -/
def tickEvents (snd : Byte) (ev : List Event) : List Event := if snd = 1 then ev ++ [.sound false] else ev

/-- `Tick(s)` (R309): inert unless the status is Running. -/
def tick (s : State) : State :=
  match s.status with
  | .running =>
    { s with delay := tickTimer s.delay, sound := tickTimer s.sound, events := tickEvents s.sound s.events }
  | .halted => s
  | .faulted _ => s

/-- A call of `Tick` by the host, `n` more to come before its next `advance` (R315). -/
def hostTick (n : Nat) (s : State) : State := tick { s with ticksDue := n }

/-- The host's choice, at an `advance`, of how many Ticks it makes after it: free (R315, R347; log entry 5). It takes
one free input. -/
def scheduleTicks (s : State) : State := { s.takeInput with ticksDue := Config.ticksAfter s.inputs }

end Sys2Proof.Machine
end

