-- ==== Sys2Proof/Syntax.lean ====
section
/-! DEFINITION. The 44 instruction forms (30_encoding R104), one constructor a row of spec/opcode_table.json. -/

namespace Sys2Proof

/-- The instructions, with their decoded fields (R101): `x` and `y` register indexes, `n` a count, `nn` a byte,
`nnn` an address. -/
inductive Instr where
  /-- 00Cn `SCD n` (R263). -/
  | scd (n : Nibble)
  /-- 00E0 `CLS` (R262). -/
  | cls
  /-- 00EE `RET` (R132). -/
  | ret
  /-- 00FB `SCR` (R264). -/
  | scr
  /-- 00FC `SCL` (R265). -/
  | scl
  /-- 00FD `EXIT` (R134). -/
  | exit
  /-- 00FE `LOW` (R266). -/
  | low
  /-- 00FF `HIGH` (R267). -/
  | high
  /-- 1nnn `JP nnn` (R130). -/
  | jp (nnn : Addr12)
  /-- 2nnn `CALL nnn` (R131). -/
  | call (nnn : Addr12)
  /-- 3xnn `SE Vx, nn` (R151). -/
  | seImm (x : Reg) (nn : Byte)
  /-- 4xnn `SNE Vx, nn` (R152). -/
  | sneImm (x : Reg) (nn : Byte)
  /-- 5xy0 `SE Vx, Vy` (R153). -/
  | seReg (x y : Reg)
  /-- 6xnn `LD Vx, nn` (R171). -/
  | ldImm (x : Reg) (nn : Byte)
  /-- 7xnn `ADD Vx, nn` (R172). -/
  | addImm (x : Reg) (nn : Byte)
  /-- 8xy0 `LD Vx, Vy` (R173). -/
  | ldReg (x y : Reg)
  /-- 8xy1 `OR Vx, Vy` (R174). -/
  | orReg (x y : Reg)
  /-- 8xy2 `AND Vx, Vy` (R175). -/
  | andReg (x y : Reg)
  /-- 8xy3 `XOR Vx, Vy` (R176). -/
  | xorReg (x y : Reg)
  /-- 8xy4 `ADD Vx, Vy` (R177). -/
  | addReg (x y : Reg)
  /-- 8xy5 `SUB Vx, Vy` (R178). -/
  | sub (x y : Reg)
  /-- 8xy6 `SHR Vx, Vy` (R179). -/
  | shr (x y : Reg)
  /-- 8xy7 `SUBN Vx, Vy` (R180). -/
  | subn (x y : Reg)
  /-- 8xyE `SHL Vx, Vy` (R181). -/
  | shl (x y : Reg)
  /-- 9xy0 `SNE Vx, Vy` (R154). -/
  | sneReg (x y : Reg)
  /-- Annn `LD I, nnn` (R200). -/
  | ldI (nnn : Addr12)
  /-- Bnnn `JP V0, nnn` (R133). -/
  | jpV0 (nnn : Addr12)
  /-- Cxnn `RND Vx, nn` (R245). -/
  | rnd (x : Reg) (nn : Byte)
  /-- Dxyn `DRW Vx, Vy, n`, `n` in 1 to 15 (R268). -/
  | drw (x y : Reg) (n : Nibble)
  /-- Dxy0 `DRW Vx, Vy, 0` (R269). -/
  | drw16 (x y : Reg)
  /-- Ex9E `SKP Vx` (R155). -/
  | skp (x : Reg)
  /-- ExA1 `SKNP Vx` (R156). -/
  | sknp (x : Reg)
  /-- Fx07 `LD Vx, DT` (R230). -/
  | ldVxDt (x : Reg)
  /-- Fx0A `LD Vx, K` (R246). -/
  | ldVxK (x : Reg)
  /-- Fx15 `LD DT, Vx` (R231). -/
  | ldDtVx (x : Reg)
  /-- Fx18 `LD ST, Vx` (R232). -/
  | ldStVx (x : Reg)
  /-- Fx1E `ADD I, Vx` (R201). -/
  | addI (x : Reg)
  /-- Fx29 `LD F, Vx` (R202). -/
  | ldF (x : Reg)
  /-- Fx30 `LD HF, Vx` (R203). -/
  | ldHf (x : Reg)
  /-- Fx33 `LD B, Vx` (R204). -/
  | ldB (x : Reg)
  /-- Fx55 `LD [I], Vx` (R205). -/
  | ldMemV (x : Reg)
  /-- Fx65 `LD Vx, [I]` (R206). -/
  | ldVMem (x : Reg)
  /-- Fx75 `LD R, Vx` (R207). -/
  | ldRV (x : Reg)
  /-- Fx85 `LD Vx, R` (R208). -/
  | ldVR (x : Reg)
  deriving DecidableEq, Repr

end Sys2Proof
end

