-- ==== Sys2Proof/WellFormed.lean ====
section
/-! DEFINITION. Which terms of `Instr` stand for an instruction: every field but one is bounded by its type. -/

namespace Sys2Proof

/-- A term is well formed when it stands for a row of the opcode map: `DRW Vx, Vy, n` needs `n` other than 0, since
"`n` = 0 is not this instruction: it is Dxy0" (R268). Every other field takes every value of its type (R101, R107). -/
def Instr.wellFormed (i : Instr) : Bool :=
  match i with
  | .drw _ _ n => n != 0
  | .scd _ | .cls | .ret | .scr | .scl | .exit | .low | .high => true
  | .jp _ | .call _ | .ldI _ | .jpV0 _ => true
  | .seImm _ _ | .sneImm _ _ | .ldImm _ _ | .addImm _ _ | .rnd _ _ => true
  | .seReg _ _ | .sneReg _ _ | .ldReg _ _ | .orReg _ _ | .andReg _ _ | .xorReg _ _ => true
  | .addReg _ _ | .sub _ _ | .shr _ _ | .subn _ _ | .shl _ _ | .drw16 _ _ => true
  | .skp _ | .sknp _ | .ldVxDt _ | .ldVxK _ | .ldDtVx _ | .ldStVx _ => true
  | .addI _ | .ldF _ | .ldHf _ | .ldB _ | .ldMemV _ | .ldVMem _ | .ldRV _ | .ldVR _ => true

end Sys2Proof
end

