-- ==== Sys2Proof/Decode.lean ====
section
/-! DEFINITION. The decoder (30_encoding R100 to R108), the encoder, and the reading of a table word. -/

namespace Sys2Proof

/-- Why a pair of bytes is no instruction (R105). -/
inductive DecodeError where
  /-- No decode rule matched the bytes `b0 b1`; a fetch of them raises the fault `InvalidOpcode`. -/
  | invalidOpcode (b0 b1 : Byte)
  deriving DecidableEq, Repr

/-- The instruction word of two fetched bytes: big-endian, `w = (b0 << 8) | b1` (R74, R100). -/
def wordOf (b0 b1 : Byte) : Word := b0 ++ b1

/-- `w[15:12]` (R100). -/
def op1 (w : Word) : Nibble := w.extractLsb' 12 4

/-- `w[11:8]` (R100). -/
def op2 (w : Word) : Nibble := w.extractLsb' 8 4

/-- `w[7:4]` (R100). -/
def op3 (w : Word) : Nibble := w.extractLsb' 4 4

/-- `w[3:0]` (R100). -/
def op4 (w : Word) : Nibble := w.extractLsb' 0 4

/-- `b0 = w[15:8]`, the first byte (R100). -/
def byte0 (w : Word) : Byte := w.extractLsb' 8 8

/-- `b1 = w[7:0]`, the second byte and the field `nn` (R100, R101). -/
def byte1 (w : Word) : Byte := w.extractLsb' 0 8

/-- `w[11:0]`, the field `nnn` (R101). -/
def fieldNnn (w : Word) : Addr12 := w.extractLsb' 0 12

/-- A register nibble as a register index (R101). -/
def regOf (n : Nibble) : Reg := n.toFin

/-- A register index as its nibble (R101). -/
def nibbleOf (x : Reg) : Nibble := BitVec.ofFin x

/-- `raise InvalidOpcode` of R103: the word is no instruction. -/
def invalid (w : Word) : Except DecodeError Instr := .error (.invalidOpcode (byte0 w) (byte1 w))

/-- The words 0000 to 0FFF: `b0` must be 0, then 00Cn, then the fixed words (R103). -/
def decodeOp0 (w : Word) : Except DecodeError Instr :=
  if byte0 w ≠ 0x00#8 then invalid w
  else if op3 w = 0xC#4 then .ok (.scd (op4 w))
  else if byte1 w = 0xE0#8 then .ok .cls
  else if byte1 w = 0xEE#8 then .ok .ret
  else if byte1 w = 0xFB#8 then .ok .scr
  else if byte1 w = 0xFC#8 then .ok .scl
  else if byte1 w = 0xFD#8 then .ok .exit
  else if byte1 w = 0xFE#8 then .ok .low
  else if byte1 w = 0xFF#8 then .ok .high
  else invalid w

/-- The words 8xyn, by the low nibble (R103). -/
def decodeOp8 (w : Word) (x y : Reg) : Except DecodeError Instr :=
  if op4 w = 0x0#4 then .ok (.ldReg x y)
  else if op4 w = 0x1#4 then .ok (.orReg x y)
  else if op4 w = 0x2#4 then .ok (.andReg x y)
  else if op4 w = 0x3#4 then .ok (.xorReg x y)
  else if op4 w = 0x4#4 then .ok (.addReg x y)
  else if op4 w = 0x5#4 then .ok (.sub x y)
  else if op4 w = 0x6#4 then .ok (.shr x y)
  else if op4 w = 0x7#4 then .ok (.subn x y)
  else if op4 w = 0xE#4 then .ok (.shl x y)
  else invalid w

/-- The words Exkk, by the second byte (R103). -/
def decodeOpE (w : Word) (x : Reg) : Except DecodeError Instr :=
  if byte1 w = 0x9E#8 then .ok (.skp x)
  else if byte1 w = 0xA1#8 then .ok (.sknp x)
  else invalid w

/-- The words Fxkk, by the second byte (R103). -/
def decodeOpF (w : Word) (x : Reg) : Except DecodeError Instr :=
  if byte1 w = 0x07#8 then .ok (.ldVxDt x)
  else if byte1 w = 0x0A#8 then .ok (.ldVxK x)
  else if byte1 w = 0x15#8 then .ok (.ldDtVx x)
  else if byte1 w = 0x18#8 then .ok (.ldStVx x)
  else if byte1 w = 0x1E#8 then .ok (.addI x)
  else if byte1 w = 0x29#8 then .ok (.ldF x)
  else if byte1 w = 0x30#8 then .ok (.ldHf x)
  else if byte1 w = 0x33#8 then .ok (.ldB x)
  else if byte1 w = 0x55#8 then .ok (.ldMemV x)
  else if byte1 w = 0x65#8 then .ok (.ldVMem x)
  else if byte1 w = 0x75#8 then .ok (.ldRV x)
  else if byte1 w = 0x85#8 then .ok (.ldVR x)
  else invalid w

/-- `Decode` of R103 on the instruction word: total, one instruction or InvalidOpcode. -/
def decodeWord (w : Word) : Except DecodeError Instr :=
  let x := regOf (op2 w)
  let y := regOf (op3 w)
  let n := op4 w
  let nn := byte1 w
  let nnn := fieldNnn w
  match op1 w with
  | 0x0#4 => decodeOp0 w
  | 0x1#4 => .ok (.jp nnn)
  | 0x2#4 => .ok (.call nnn)
  | 0x3#4 => .ok (.seImm x nn)
  | 0x4#4 => .ok (.sneImm x nn)
  | 0x5#4 => if n = 0x0#4 then .ok (.seReg x y) else invalid w
  | 0x6#4 => .ok (.ldImm x nn)
  | 0x7#4 => .ok (.addImm x nn)
  | 0x8#4 => decodeOp8 w x y
  | 0x9#4 => if n = 0x0#4 then .ok (.sneReg x y) else invalid w
  | 0xA#4 => .ok (.ldI nnn)
  | 0xB#4 => .ok (.jpV0 nnn)
  | 0xC#4 => .ok (.rnd x nn)
  | 0xD#4 => if n = 0x0#4 then .ok (.drw16 x y) else .ok (.drw x y n)
  | 0xE#4 => decodeOpE w x
  | _ => decodeOpF w x -- 0xF, the one nibble left

/-- `Decode(b0, b1)` (R103); `superMode` does not enter it (R43). -/
def decode (b0 b1 : Byte) : Except DecodeError Instr := decodeWord (wordOf b0 b1)

/-- Format `A`: `oooo nnnn nnnn nnnn` (R101). -/
def formatA (o : Nibble) (nnn : Addr12) : Word := o ++ nnn

/-- Formats `XB` and `XF`: `oooo xxxx bbbb bbbb` (R101). -/
def formatXB (o : Nibble) (x : Reg) (b : Byte) : Word := o ++ nibbleOf x ++ b

/-- Formats `XY` and `XYN`: `oooo xxxx yyyy ffff` (R101). -/
def formatXY (o : Nibble) (x y : Reg) (f : Nibble) : Word := o ++ nibbleOf x ++ nibbleOf y ++ f

/-- The word of an instruction, from the layouts of R101 and the patterns of R104. -/
def encode (i : Instr) : Word :=
  match i with
  | .scd n => 0x00C#12 ++ n
  | .cls => 0x00E0#16
  | .ret => 0x00EE#16
  | .scr => 0x00FB#16
  | .scl => 0x00FC#16
  | .exit => 0x00FD#16
  | .low => 0x00FE#16
  | .high => 0x00FF#16
  | .jp nnn => formatA 0x1#4 nnn
  | .call nnn => formatA 0x2#4 nnn
  | .seImm x nn => formatXB 0x3#4 x nn
  | .sneImm x nn => formatXB 0x4#4 x nn
  | .seReg x y => formatXY 0x5#4 x y 0x0#4
  | .ldImm x nn => formatXB 0x6#4 x nn
  | .addImm x nn => formatXB 0x7#4 x nn
  | .ldReg x y => formatXY 0x8#4 x y 0x0#4
  | .orReg x y => formatXY 0x8#4 x y 0x1#4
  | .andReg x y => formatXY 0x8#4 x y 0x2#4
  | .xorReg x y => formatXY 0x8#4 x y 0x3#4
  | .addReg x y => formatXY 0x8#4 x y 0x4#4
  | .sub x y => formatXY 0x8#4 x y 0x5#4
  | .shr x y => formatXY 0x8#4 x y 0x6#4
  | .subn x y => formatXY 0x8#4 x y 0x7#4
  | .shl x y => formatXY 0x8#4 x y 0xE#4
  | .sneReg x y => formatXY 0x9#4 x y 0x0#4
  | .ldI nnn => formatA 0xA#4 nnn
  | .jpV0 nnn => formatA 0xB#4 nnn
  | .rnd x nn => formatXB 0xC#4 x nn
  | .drw x y n => formatXY 0xD#4 x y n
  | .drw16 x y => formatXY 0xD#4 x y 0x0#4
  | .skp x => formatXB 0xE#4 x 0x9E#8
  | .sknp x => formatXB 0xE#4 x 0xA1#8
  | .ldVxDt x => formatXB 0xF#4 x 0x07#8
  | .ldVxK x => formatXB 0xF#4 x 0x0A#8
  | .ldDtVx x => formatXB 0xF#4 x 0x15#8
  | .ldStVx x => formatXB 0xF#4 x 0x18#8
  | .addI x => formatXB 0xF#4 x 0x1E#8
  | .ldF x => formatXB 0xF#4 x 0x29#8
  | .ldHf x => formatXB 0xF#4 x 0x30#8
  | .ldB x => formatXB 0xF#4 x 0x33#8
  | .ldMemV x => formatXB 0xF#4 x 0x55#8
  | .ldVMem x => formatXB 0xF#4 x 0x65#8
  | .ldRV x => formatXB 0xF#4 x 0x75#8
  | .ldVR x => formatXB 0xF#4 x 0x85#8

/-- The instruction word whose bits are those of `w` below `nbits`, the bits above them 0: bit 0 of the opcode
table's numbering is bit 0 of the one 16-bit word (R100, opcode_table.json). -/
def tableWord (nbits w : Nat) : Word := BitVec.ofNat 16 (w % 2 ^ nbits)

/-- The instruction the decoder reads from a word numbered as spec/opcode_table.json numbers it: its high byte lies
first (R74, R100). -/
def decodeTableWord (nbits w : Nat) : Option Instr :=
  match decode (byte0 (tableWord nbits w)) (byte1 (tableWord nbits w)) with
  | .ok i => some i
  | .error _ => none

end Sys2Proof
end

