-- ==== Sys2Proof/Machine/Fetch.lean ====
section
/-! DEFINITION. Fetching and decoding the instruction at `PC` (30_encoding R111). -/

namespace Sys2Proof.Machine

/-- The fetch checks and the two bytes at `PC` (R111): range first, then alignment (R303). A `PC` that is negative as
a signed number never arises (R35) and counts as out of range (log entry 10). -/
def fetchBytes (s : State) : Except FaultKind (Byte × Byte) :=
  if 0xFFE < s.pc.toNat then .error (.pcOutOfRange s.pc)
  else if s.pc.toNat % 2 = 1 then .error (.misalignedPc s.pc)
  else .ok (Memory.read s.mem s.pc.toNat, Memory.read s.mem (s.pc.toNat + 1))

/-- The instruction at `PC`, or the fault of its fetch or decode (R111, R303). -/
def fetchInstr (s : State) : Except FaultKind Instr :=
  match fetchBytes s with
  | .error f => .error f
  | .ok (b0, b1) =>
    match decode b0 b1 with
    | .error (.invalidOpcode c0 c1) => .error (.invalidOpcode s.pc c0 c1)
    | .ok i => .ok i

end Sys2Proof.Machine
end

