-- ==== Sys2Proof/Machine/Load.lean ====
section
/-! DEFINITION. Load, the only reset (70_reset R340 to R344), and placing one instruction word in memory. -/

namespace Sys2Proof.Machine

/-- Memory with an instruction word placed at an address, high byte first (R74); as the load of a program does, it
makes no check of reserved addresses (R340). -/
def placeWord (m : Memory) (a : Nat) (w : Word) : Memory :=
  Memory.writeCells m (cellsFrom a [byte0 w, byte1 w])

/-- What `init` places in memory, in its order: the two fonts, then the program (R340, R342). -/
def loadCells (program : List Byte) (hexFont : HexFont) (largeFont : LargeFont) : List Host.Cell :=
  cellsFrom Config.hexFontBase hexFont.toList ++ cellsFrom Config.largeFontBase largeFont.toList ++
    cellsFrom Config.progBase program

/-- `init(PROGRAM, SUPER_MODE)` (R340, R341), with the other arguments of the initial state and of the step (R8): the
state of R49 with the fonts and the program in place, or a refusal. -/
def load (program : List Byte) (superMode : Bool) (hexFont : HexFont) (largeFont : LargeFont) (keyCodes : List Byte) :
    Result :=
  if Config.maxProgram < program.length then .refused (.programTooLong program.length)
  else .next { State.reset with
    mem := Memory.writeCells [] (loadCells program hexFont largeFont)
    superMode := superMode
    keyCodes := keyCodes }

end Sys2Proof.Machine
end

