-- ==== Sys2Proof/Machine/Step.lean ====
section
/-! DEFINITION. One step: one call by the host, of `Tick` or of `advance` (30_encoding R111 to R113, 60_exceptions R315). -/

namespace Sys2Proof.Machine

/-- `advance(s)` (R111): no step from Halted or Faulted (R113; log entry 2); else fetch, decode, execute. -/
def advance (s : State) : Host.Outcome State Fault Refusal :=
  match s.status with
  | .halted => .fault .halted
  | .faulted f => .fault (.faulted f)
  | .running =>
    match fetchInstr s with
    | .error f => raise f s
    | .ok i => exec i s

/-- One step of the machine is one call by the host (R315): `Tick` while one is due, else `advance`, with a free number of
Ticks to follow it, so that a run is any sequence of the two (log entry 5). A machine that is not running has no step
(R113); a `Tick` would leave it as it is (R309). -/
def step (s : State) : Host.Outcome State Fault Refusal :=
  match s.status with
  | .running =>
    match s.ticksDue with
    | 0 => advance (scheduleTicks s)
    | n + 1 => .next (hostTick n s)
  | .halted => advance s
  | .faulted _ => advance s

/-- The state with the instruction of a table word stored at `PC` and no Tick due, so that the next step is the `advance`
that fetches it, when `PC` references two bytes of memory (log entry 14). -/
def State.withFetchWord (s : State) (nbits w : Nat) : State :=
  if s.pc.toNat ≤ 0xFFE then
    { s with mem := placeWord s.mem s.pc.toNat (tableWord nbits w), ticksDue := 0 }
  else s

end Sys2Proof.Machine
end

