-- ==== Sys2Proof/Safety.lean ====
section
/-! DEFINITION. What claims use: the machine invariant, what ends a run, the invalid words, and the pixels a sprite covers. -/

namespace Sys2Proof.Machine

/-- Every held stack entry is the address of a CALL that passed the fetch check (R131, R132): at most 0xFFE and even. -/
abbrev State.StackOk (s : State) : Prop :=
  ∀ k : Fin 16, k.val < s.depth.val → s.stack[k.val].toNat ≤ 0xFFE ∧ s.stack[k.val].toNat % 2 = 0

/-- THE INVARIANT of the machine: memory in its canonical form, `PC` in 0 to 0x10FE (R35), and the held stack entries
addresses of fetchable words (R132). `SC` in [-1, 15] (R36) holds by the type of `depth`. -/
abbrev State.Inv (s : State) : Prop :=
  Memory.wf s.mem = true ∧ s.pc.toNat ≤ 0x10FE ∧ s.StackOk

/-- The run has ended cleanly: "a claim about the result of the program is a claim about the `Halted` states it
reaches" (R348). -/
abbrev State.Ended (s : State) : Prop := s.status = .halted

/-- The run was stopped by a fault, which is never a final state of the program (R301, R348). -/
abbrev State.Stopped (s : State) : Prop := ∃ f, s.status = .faulted f

/-- The invalid words of R105, by their number. -/
abbrev listedInvalid (w : Nat) : Prop :=
  w ≤ 0x00BF ∨ (0x00D0 ≤ w ∧ w ≤ 0x00DF) ∨ (0x00E1 ≤ w ∧ w ≤ 0x00ED) ∨ (0x00EF ≤ w ∧ w ≤ 0x00FA) ∨
  (0x0100 ≤ w ∧ w ≤ 0x0FFF) ∨
  ((w / 4096 = 0x5 ∨ w / 4096 = 0x9) ∧ w % 16 ≠ 0) ∨
  (w / 4096 = 0x8 ∧ w % 16 ∈ [0x8, 0x9, 0xA, 0xB, 0xC, 0xD, 0xF]) ∨
  (w / 4096 = 0xE ∧ w % 256 ∉ [0x9E, 0xA1]) ∨
  (w / 4096 = 0xF ∧ w % 256 ∉ [0x07, 0x0A, 0x15, 0x18, 0x1E, 0x29, 0x30, 0x33, 0x55, 0x65, 0x75, 0x85])

/-- The physical pixels of the logical pixel `(row, col)` (R260): one pixel in high resolution, a 2 x 2 block of the
64 x 32 logical grid in low resolution. -/
abbrev InBlock (large : Bool) (row col : Nat) (p : Pixel) : Prop :=
  if large then p.1.val = row % 64 ∧ p.2.val = col % 128 else p.1.val / 2 = row % 32 ∧ p.2.val / 2 = col % 64

/-- A 1 bit of the 8-wide sprite of `n` rows at `I`, drawn at (`V[x]`, `V[y]`), covers the pixel (R268). -/
abbrev Covers8 (s : State) (x y : Reg) (n : Nat) (p : Pixel) : Prop :=
  ∃ r < n, ∃ c < 8, (byteAt s r).getLsbD (7 - c) = true ∧
    InBlock s.largeScreen ((s.getV y).toNat + r) ((s.getV x).toNat + c) p

/-- Bit `c` from the left of row `r` of the 16-wide sprite at `I`: two bytes a row, left then right (R269). -/
abbrev bit16 (s : State) (r c : Nat) : Bool :=
  if c < 8 then (byteAt s (2 * r)).getLsbD (7 - c) else (byteAt s (2 * r + 1)).getLsbD (15 - c)

/-- A 1 bit of the 16 x 16 sprite at `I`, drawn in high resolution at (`V[x]`, `V[y]`), covers the pixel (R269). -/
abbrev Covers16 (s : State) (x y : Reg) (p : Pixel) : Prop :=
  ∃ r < 16, ∃ c < 16, bit16 s r c = true ∧ InBlock true ((s.getV y).toNat + r) ((s.getV x).toNat + c) p

/-- What a draw covering exactly the pixels of `cov` leaves in `t` (R268, R269, R271): the covered pixels inverted, every
other as it was, `V[F]` 1 if a covered pixel was set and 0 if none was, one frame event with the new buffer, every other
register as it was, `PC` 2 on, and nothing else changed: memory, `I`, the stack, the timers and the flag registers. -/
abbrev Draws (cov : Pixel → Prop) (s t : State) : Prop :=
  (∀ p, cov p → pixelAt t.scr p = !pixelAt s.scr p) ∧
  (∀ p, ¬cov p → pixelAt t.scr p = pixelAt s.scr p) ∧
  ((∃ p, cov p ∧ pixelAt s.scr p = true) → t.getV vF = 1) ∧
  ((¬∃ p, cov p ∧ pixelAt s.scr p = true) → t.getV vF = 0) ∧
  (∀ r, r ≠ vF → t.getV r = s.getV r) ∧
  t = { s with
    v := t.v, scr := t.scr, events := s.events ++ [.frame t.scr], pc := s.pc + 2, lastResult := some .continued }

end Sys2Proof.Machine
end

