-- ==== Sys2Proof/Certificates/Slice0/Obligations.lean ====
section
/-! DEFINITION. The statements for the provers. A frame is written as an equation: `t` is `s` with the named fields
replaced, so every other field of the state is unchanged, memory among them where `mem` is not named. -/

open Sys2Proof Sys2Proof.Machine

/-! ## Encoding and decoding -/

/-- R101, R103, R104: the decoder reads every well-formed instruction back from the two bytes of its word, with every
operand at every value. -/
def Obligations.DecodeOfEncodeIsTheInstruction : Prop :=
  ∀ i : Instr, i.wellFormed = true → decode (byte0 (encode i)) (byte1 (encode i)) = .ok i

/-- R103, R106, R110: what a word decodes to is well formed and its encoding is that word, so no two words share an
instruction and no bit is dropped. -/
def Obligations.EncodeOfDecodedIsTheWord : Prop :=
  ∀ (b0 b1 : Byte) (i : Instr), decode b0 b1 = .ok i → i.wellFormed = true ∧ encode i = wordOf b0 b1

/-- R105: the words that decode to no instruction are exactly those of the rule's list. -/
def Obligations.InvalidWordsAreThoseListed : Prop :=
  ∀ b0 b1 : Byte,
    (listedInvalid (b0.toNat * 256 + b1.toNat) → decode b0 b1 = .error (.invalidOpcode b0 b1)) ∧
    (¬listedInvalid (b0.toNat * 256 + b1.toNat) → ∃ i, decode b0 b1 = .ok i)

/-- R104: one word of each family, from its pattern. A sanity statement. -/
def Obligations.PatternWordsDecodeAsWritten : Prop :=
  decode 0x12 0x34 = .ok (.jp 0x234) ∧ decode 0x32 0x41 = .ok (.seImm 2 0x41) ∧
  decode 0x8A 0xBE = .ok (.shl 10 11) ∧ decode 0xA2 0xF0 = .ok (.ldI 0x2F0) ∧
  decode 0xF3 0x18 = .ok (.ldStVx 3) ∧ decode 0xC1 0x0F = .ok (.rnd 1 0x0F) ∧
  decode 0xD0 0x15 = .ok (.drw 0 1 5) ∧ decode 0xD0 0x10 = .ok (.drw16 0 1)

/-! ## The instruction cycle, faults and the host -/

/-- R111, R315, R347: a step of a running machine is one call by the host. With no Tick due it is an `advance`, whatever its
fetch gives, on the state with the number of Ticks to follow chosen, a free value, and one free input taken (log entry 5:
the model's choice of how to hold the host's turn); and when the bytes at an even `PC` in range decode to `i`, it is `exec`
of `i` on that state. With a Tick due it is that Tick. `PC` is moved by `exec`. -/
def Obligations.StepRunsTheDecodedInstruction : Prop :=
  ∀ s : State, s.status = .running →
    (s.ticksDue = 0 → step s = advance { s with ticksDue := Config.ticksAfter s.inputs, inputs := s.inputs + 1 }) ∧
    (∀ i : Instr, s.ticksDue = 0 → s.pc.toNat ≤ 0xFFE → s.pc.toNat % 2 = 0 →
      decode (Memory.read s.mem s.pc.toNat) (Memory.read s.mem (s.pc.toNat + 1)) = .ok i →
      step s = exec i { s with ticksDue := Config.ticksAfter s.inputs, inputs := s.inputs + 1 }) ∧
    (∀ n : Nat, s.ticksDue = n + 1 → step s = .next (tick { s with ticksDue := n }))

/-- R111, R303 (decisions D3, D4, D24 of the spec): the faults of fetch and decode, in their order, each leaving
everything but `status` and the outcome as it was. -/
def Obligations.FetchFaultsComeInOrder : Prop :=
  ∀ s : State, s.status = .running →
    (0xFFE < s.pc.toNat → advance s = .next { s with
      status := .faulted (.pcOutOfRange s.pc), lastResult := some (.faulted (.pcOutOfRange s.pc)) }) ∧
    (s.pc.toNat ≤ 0xFFE → s.pc.toNat % 2 = 1 → advance s = .next { s with
      status := .faulted (.misalignedPc s.pc), lastResult := some (.faulted (.misalignedPc s.pc)) }) ∧
    (s.pc.toNat ≤ 0xFFE → s.pc.toNat % 2 = 0 →
      listedInvalid ((Memory.read s.mem s.pc.toNat).toNat * 256 + (Memory.read s.mem (s.pc.toNat + 1)).toNat) →
      advance s = .next { s with
        status := .faulted (.invalidOpcode s.pc (Memory.read s.mem s.pc.toNat) (Memory.read s.mem (s.pc.toNat + 1)))
        lastResult := some (.faulted
          (.invalidOpcode s.pc (Memory.read s.mem s.pc.toNat) (Memory.read s.mem (s.pc.toNat + 1)))) })

/-- R113 (decisions D23, D26): no step from Halted or Faulted; how the model says so is its own choice, log entry 2. -/
def Obligations.StoppedMachineHasNoStep : Prop :=
  ∀ s : State, (s.status = .halted → step s = .fault .halted) ∧
    (∀ f, s.status = .faulted f → step s = .fault (.faulted f))

/-- Every instruction completes, traps or waits with a next state, in every state: none is refused and none stops the
machine by itself (R112, R301; log entry 1). -/
def Obligations.EveryInstructionAnswersANextState : Prop :=
  ∀ (i : Instr) (s : State), ∃ t, exec i s = .next t

/-- R301 (decision D23): an `advance` that faults changes `status` and the outcome and nothing else: no register, no byte,
no pixel, no event, no free input. A step that faults changes those two, with the number of Ticks to follow chosen and one
free input taken, as by every `advance` the host calls (log entry 5), and nothing else. -/
def Obligations.FaultLeavesEverythingElse : Prop :=
  ∀ (s t : State) (f : FaultKind), t.status = .faulted f →
    (advance s = .next t → t = { s with status := .faulted f, lastResult := some (.faulted f) }) ∧
    (step s = .next t → t = { s with
      status := .faulted f, lastResult := some (.faulted f)
      ticksDue := Config.ticksAfter s.inputs, inputs := s.inputs + 1 })

/-- R134, R44: a step that halts the machine ran 00FD, and changed nothing but `status` and the outcome (that `PC` stays is
the spec's decision D26), with the number of Ticks to follow chosen and one free input taken, as by every `advance` (log
entry 5). -/
def Obligations.OnlyExitHaltsTheMachine : Prop :=
  ∀ s t : State, step s = .next t → t.status = .halted →
    fetchInstr s = .ok .exit ∧ t = { s with
      status := .halted, lastResult := some .halted
      ticksDue := Config.ticksAfter s.inputs, inputs := s.inputs + 1 }

/-- R309 (decisions D18, D25): one Tick takes 1 from each timer that is not 0, emits `Sound(false)` when it takes `S`
from 1 to 0, and does nothing unless the machine is running. -/
def Obligations.TickCountsTheTimersDown : Prop :=
  ∀ s : State,
    (s.status = .running →
      (tick s).delay.toNat = s.delay.toNat - 1 ∧ (tick s).sound.toNat = s.sound.toNat - 1 ∧
      (s.sound.toNat = 1 → (tick s).events = s.events ++ [.sound false]) ∧
      (s.sound.toNat ≠ 1 → (tick s).events = s.events) ∧
      tick s = { s with delay := (tick s).delay, sound := (tick s).sound, events := (tick s).events }) ∧
    (s.status ≠ .running → tick s = s)

/-- R49, the values whose ground is the source: `V`, `PC`, `SC`, and `status`. -/
def Obligations.ResetValuesOfTheSource : Prop :=
  (∀ x, State.reset.getV x = 0) ∧ State.reset.pc = 0x200 ∧ State.reset.sc = -1 ∧ State.reset.status = .running

/-- R49, the values the spec decides (D12 to D16: `I`, timers, `FR`, stack, screen, resolution, default fonts and zero
bytes; log entries 6, 8 and 9), and R8, the default `KEY_CODES` (D10; log entry 4). -/
def Obligations.ResetValuesTheSpecDecides : Prop :=
  State.reset.i = 0 ∧ State.reset.delay = 0 ∧ State.reset.sound = 0 ∧ (∀ k, State.reset.getFR k = 0) ∧
  (∀ k : Fin 16, State.reset.stack[k.val] = 0) ∧ (∀ p, pixelAt State.reset.scr p = false) ∧
  State.reset.largeScreen = false ∧
  (∀ k : Byte, k ∈ State.reset.keyCodes ↔ k.toNat ≤ 15) ∧
  (∀ k : Fin 80, Config.hexFont[k.val]? = some (Memory.read State.reset.mem k.val)) ∧
  (∀ k : Fin 100, Config.largeFont[k.val]? = some (Memory.read State.reset.mem (0x80 + k.val))) ∧
  (∀ a, (0x50 ≤ a ∧ a ≤ 0x7F) ∨ 0xE4 ≤ a → Memory.read State.reset.mem a = 0)

/-- R8, R340, R341, R342 (decisions D14, D27): for all arguments of the initial state, `init` places the two fonts, and a
program of at most 3584 bytes at 0x200 and on; every other byte is 0 and every other field is as R49 gives it; it refuses
a longer program. The default arguments and the empty program give `State.reset` (log entries 4, 6, 7 and 14). -/
def Obligations.LoadPlacesTheProgram : Prop :=
  (∀ (program : List Byte) (superMode : Bool) (hexFont : HexFont) (largeFont : LargeFont) (keyCodes : List Byte),
    (program.length ≤ 3584 → ∃ t, load program superMode hexFont largeFont keyCodes = .next t ∧
      (∀ k : Fin 80, Memory.read t.mem k.val = hexFont[k.val]) ∧
      (∀ k : Fin 100, Memory.read t.mem (0x080 + k.val) = largeFont[k.val]) ∧
      (∀ k b, program[k]? = some b → Memory.read t.mem (0x200 + k) = b) ∧
      (∀ a, (0x050 ≤ a ∧ a ≤ 0x07F) ∨ (0x0E4 ≤ a ∧ a ≤ 0x1FF) ∨ 0x200 + program.length ≤ a →
        Memory.read t.mem a = 0) ∧
      Memory.wf t.mem = true ∧
      t = { State.reset with mem := t.mem, superMode := superMode, keyCodes := keyCodes }) ∧
    (3584 < program.length →
      load program superMode hexFont largeFont keyCodes = .refused (.programTooLong program.length))) ∧
  load [] false Config.defaultHexFont Config.defaultLargeFont Config.keyCodes = .next State.reset

/-- The invariant holds at reset. -/
def Obligations.ResetMeetsTheInvariant : Prop := State.reset.Inv

/-- R35, R132: every step keeps the invariant, from every state that has it: memory canonical, `PC` in 0 to 0x10FE, the
held stack entries even and at most 0xFFE (the ranges are inferences the spec marks as derived). -/
def Obligations.StepKeepsTheInvariant : Prop :=
  ∀ s t : State, s.Inv → step s = .next t → t.Inv

/-! ## Control flow -/

/-- R130, R133 (the target of JP is G8 of the spec's general knowledge, no wrap is decision D3): JP sets `PC` to `nnn` and
JP V0 to `nnn + V[0]`, not reduced mod 4096, and nothing else changes. -/
def Obligations.JumpsSetThePc : Prop :=
  ∀ (nnn : Addr12) (s : State),
    (∃ t, exec (.jp nnn) s = .next t ∧ t.pc.toNat = nnn.toNat ∧
      t = { s with pc := t.pc, lastResult := some .continued }) ∧
    (∃ t, exec (.jpV0 nnn) s = .next t ∧ t.pc.toNat = nnn.toNat + (s.getV 0).toNat ∧
      t = { s with pc := t.pc, lastResult := some .continued })

/-- R131: CALL pushes its own address and jumps; with 16 entries held it raises StackOverflow with nothing changed. -/
def Obligations.CallPushesItsOwnAddress : Prop :=
  ∀ (nnn : Addr12) (s : State),
    (s.sc < 15 → ∃ t, exec (.call nnn) s = .next t ∧ t.pc.toNat = nnn.toNat ∧ t.sc = s.sc + 1 ∧
      (∀ k : Fin 16, (k.val : Int) = s.sc + 1 → t.stack[k.val] = s.pc) ∧
      (∀ k : Fin 16, (k.val : Int) ≠ s.sc + 1 → t.stack[k.val] = s.stack[k.val]) ∧
      t = { s with pc := t.pc, depth := t.depth, stack := t.stack, lastResult := some .continued }) ∧
    (s.sc = 15 → exec (.call nnn) s = .next { s with
      status := .faulted (.stackOverflow s.pc), lastResult := some (.faulted (.stackOverflow s.pc)) })

/-- R132: RET goes 2 past the popped address and moves the cursor down; an address a CALL pushed is at most 0xFFE, so the
sum is at most 0x1000 (an inference the spec marks as derived); with an empty stack it raises StackUnderflow with nothing changed. -/
def Obligations.ReturnGoesPastTheCall : Prop :=
  ∀ s : State,
    (∀ k : Fin 16, s.sc = (k.val : Int) → ∃ t, exec .ret s = .next t ∧ t.pc = s.stack[k.val] + 2 ∧ t.sc = s.sc - 1 ∧
      (s.StackOk → t.pc.toNat = s.stack[k.val].toNat + 2 ∧ t.pc.toNat ≤ 0x1000) ∧
      t = { s with pc := t.pc, depth := t.depth, lastResult := some .continued }) ∧
    (s.sc = -1 → exec .ret s = .next { s with
      status := .faulted (.stackUnderflow s.pc), lastResult := some (.faulted (.stackUnderflow s.pc)) })

/-- R132, W2: CALL followed at once by RET comes back to the word after the CALL, with the call depth it had. -/
def Obligations.CallThenReturnComesBack : Prop :=
  ∀ (nnn : Addr12) (s : State), s.sc < 15 →
    ∃ t u, exec (.call nnn) s = .next t ∧ exec .ret t = .next u ∧ u.pc = s.pc + 2 ∧ u.sc = s.sc

/-- R134 (that `PC` stays: decision D26): EXIT halts and changes nothing else. -/
def Obligations.ExitHaltsInPlace : Prop :=
  ∀ s : State, exec .exit s = .next { s with status := .halted, lastResult := some .halted }

/-! ## Conditional skips -/

/-- R150 to R152 (the conditions: G3): SE and SNE against a byte leave `PC` 4 on when taken and 2 on when not, and
nothing else. -/
def Obligations.SkipsAgainstAByte : Prop :=
  ∀ (x : Reg) (nn : Byte) (s : State),
    exec (.seImm x nn) s = .next { s with
      pc := (if s.getV x = nn then s.pc + 4 else s.pc + 2), lastResult := some .continued } ∧
    exec (.sneImm x nn) s = .next { s with
      pc := (if s.getV x = nn then s.pc + 2 else s.pc + 4), lastResult := some .continued }

/-- R150, R153, R154 (the conditions: G3): the same between two registers. -/
def Obligations.SkipsBetweenRegisters : Prop :=
  ∀ (x y : Reg) (s : State),
    exec (.seReg x y) s = .next { s with
      pc := (if s.getV x = s.getV y then s.pc + 4 else s.pc + 2), lastResult := some .continued } ∧
    exec (.sneReg x y) s = .next { s with
      pc := (if s.getV x = s.getV y then s.pc + 2 else s.pc + 4), lastResult := some .continued }

/-- R150, R155, R156, R312 (decision D10, sense G4): SKP and SKNP skip by the host's free answer about the key `V[x]`,
take that one input, and change nothing else. It holds whatever the answer is. -/
def Obligations.SkipsOnAKey : Prop :=
  ∀ (x : Reg) (s : State),
    exec (.skp x) s = .next { s with
      pc := (if Config.keyPressed s.inputs (s.getV x) then s.pc + 4 else s.pc + 2)
      inputs := s.inputs + 1, lastResult := some .continued } ∧
    exec (.sknp x) s = .next { s with
      pc := (if Config.keyPressed s.inputs (s.getV x) then s.pc + 2 else s.pc + 4)
      inputs := s.inputs + 1, lastResult := some .continued }

/-! ## Arithmetic and logic -/

/-- R171, R173 (decision D35, G1, G2): LD Vx, nn and LD Vx, Vy write `V[x]` and no other register, `V[F]` only as `x`. -/
def Obligations.RegisterLoadsWriteTheirTarget : Prop :=
  ∀ (x y : Reg) (nn : Byte) (s : State),
    (∃ t, exec (.ldImm x nn) s = .next t ∧ t.getV x = nn ∧ (∀ r, r ≠ x → t.getV r = s.getV r) ∧
      t = { s with v := t.v, pc := s.pc + 2, lastResult := some .continued }) ∧
    (∃ t, exec (.ldReg x y) s = .next t ∧ t.getV x = s.getV y ∧ (∀ r, r ≠ x → t.getV r = s.getV r) ∧
      t = { s with v := t.v, pc := s.pc + 2, lastResult := some .continued })

/-- R172 (G21, decision D9): ADD Vx, nn is the sum mod 256, and writes no flag. -/
def Obligations.AddImmediateWritesNoFlag : Prop :=
  ∀ (x : Reg) (nn : Byte) (s : State), ∃ t, exec (.addImm x nn) s = .next t ∧
    (t.getV x).toNat = ((s.getV x).toNat + nn.toNat) % 256 ∧ (∀ r, r ≠ x → t.getV r = s.getV r) ∧
    t = { s with v := t.v, pc := s.pc + 2, lastResult := some .continued }

/-- R174 to R176 (G2, decision D9): OR, AND and XOR bit by bit, and no flag. -/
def Obligations.LogicIsBitwiseWithoutFlag : Prop :=
  ∀ (x y : Reg) (s : State),
    (∃ t, exec (.orReg x y) s = .next t ∧
      (∀ k, (t.getV x).getLsbD k = ((s.getV x).getLsbD k || (s.getV y).getLsbD k)) ∧
      (∀ r, r ≠ x → t.getV r = s.getV r) ∧
      t = { s with v := t.v, pc := s.pc + 2, lastResult := some .continued }) ∧
    (∃ t, exec (.andReg x y) s = .next t ∧
      (∀ k, (t.getV x).getLsbD k = ((s.getV x).getLsbD k && (s.getV y).getLsbD k)) ∧
      (∀ r, r ≠ x → t.getV r = s.getV r) ∧
      t = { s with v := t.v, pc := s.pc + 2, lastResult := some .continued }) ∧
    (∃ t, exec (.xorReg x y) s = .next t ∧
      (∀ k, (t.getV x).getLsbD k = ((s.getV x).getLsbD k != (s.getV y).getLsbD k)) ∧
      (∀ r, r ≠ x → t.getV r = s.getV r) ∧
      t = { s with v := t.v, pc := s.pc + 2, lastResult := some .continued })

/-- R177 (R170: decision D7, flag last, so `V[F]` holds the carry also when `x = F`; decision D8, operands first): ADD Vx,
Vy is the sum mod 256 and `V[F]` the carry. -/
def Obligations.AddSetsTheCarry : Prop :=
  ∀ (x y : Reg) (s : State), ∃ t, exec (.addReg x y) s = .next t ∧
    (x ≠ vF → (t.getV x).toNat = ((s.getV x).toNat + (s.getV y).toNat) % 256) ∧
    t.getV vF = (if 256 ≤ (s.getV x).toNat + (s.getV y).toNat then 1 else 0) ∧
    (∀ r, r ≠ x → r ≠ vF → t.getV r = s.getV r) ∧
    t = { s with v := t.v, pc := s.pc + 2, lastResult := some .continued }

/-- R178 (R170: decision D7, flag last, so also when `x = F`; decision D8, operands first): SUB Vx, Vy is
`(vx + 256 - vy) mod 256` and `V[F]` is 1 iff `vx >= vy`. -/
def Obligations.SubSetsNoBorrow : Prop :=
  ∀ (x y : Reg) (s : State), ∃ t, exec (.sub x y) s = .next t ∧
    (x ≠ vF → (t.getV x).toNat = ((s.getV x).toNat + 256 - (s.getV y).toNat) % 256) ∧
    t.getV vF = (if (s.getV y).toNat ≤ (s.getV x).toNat then 1 else 0) ∧
    (∀ r, r ≠ x → r ≠ vF → t.getV r = s.getV r) ∧
    t = { s with v := t.v, pc := s.pc + 2, lastResult := some .continued }

/-- R180 (R170: decision D7, flag last, so also when `x = F`; decision D8, operands first): SUBN Vx, Vy is
`(vy - vx) mod 256` and `V[F]` is 1 iff `vy >= vx`. -/
def Obligations.ReverseSubSetsNoBorrow : Prop :=
  ∀ (x y : Reg) (s : State), ∃ t, exec (.subn x y) s = .next t ∧
    (x ≠ vF → (t.getV x).toNat = ((s.getV y).toNat + 256 - (s.getV x).toNat) % 256) ∧
    t.getV vF = (if (s.getV x).toNat ≤ (s.getV y).toNat then 1 else 0) ∧
    (∀ r, r ≠ x → r ≠ vF → t.getV r = s.getV r) ∧
    t = { s with v := t.v, pc := s.pc + 2, lastResult := some .continued }

/-- R179, R181 (the directions: G22; R170: decisions D7, flag last, and D8, operands first): SHR halves its source and SHL doubles it mod 256, superMode selects the source, and
`V[F]` is the bit shifted out, also when `x = F`. -/
def Obligations.ShiftsMoveTheirSourceByOneBit : Prop :=
  ∀ (x y : Reg) (s : State),
    (∃ t, exec (.shr x y) s = .next t ∧
      (x ≠ vF → (t.getV x).toNat = (if s.superMode then s.getV x else s.getV y).toNat / 2) ∧
      (t.getV vF).toNat = (if s.superMode then s.getV x else s.getV y).toNat % 2 ∧
      (∀ r, r ≠ x → r ≠ vF → t.getV r = s.getV r) ∧
      t = { s with v := t.v, pc := s.pc + 2, lastResult := some .continued }) ∧
    (∃ t, exec (.shl x y) s = .next t ∧
      (x ≠ vF → (t.getV x).toNat = (if s.superMode then s.getV x else s.getV y).toNat * 2 % 256) ∧
      (t.getV vF).toNat = (if s.superMode then s.getV x else s.getV y).toNat / 128 ∧
      (∀ r, r ≠ x → r ≠ vF → t.getV r = s.getV r) ∧
      t = { s with v := t.v, pc := s.pc + 2, lastResult := some .continued })

/-! ## Memory transfer -/

/-- R200, R201 (G7, G9, decisions D6, D9): LD I, nnn and ADD I, Vx write `I`, 16 bits wide, and nothing else. -/
def Obligations.AddressRegisterLoadsAndAdds : Prop :=
  ∀ (nnn : Addr12) (x : Reg) (s : State),
    (∃ t, exec (.ldI nnn) s = .next t ∧ t.i.toNat = nnn.toNat ∧
      t = { s with i := t.i, pc := s.pc + 2, lastResult := some .continued }) ∧
    (∃ t, exec (.addI x) s = .next t ∧ t.i.toNat = (s.i.toNat + (s.getV x).toNat) % 65536 ∧
      t = { s with i := t.i, pc := s.pc + 2, lastResult := some .continued })

/-- R202: LD F, Vx points `I` at the hex glyph of the low nibble of `V[x]`, for every value of it. -/
def Obligations.HexGlyphAddress : Prop :=
  ∀ (x : Reg) (s : State), ∃ t, exec (.ldF x) s = .next t ∧ t.i.toNat = 0x000 + 5 * ((s.getV x).toNat % 16) ∧
    t = { s with i := t.i, pc := s.pc + 2, lastResult := some .continued }

/-- R203 (the full byte: decision D22): LD HF, Vx points `I` at the large glyph of a digit, and raises InvalidGlyphIndex
with nothing changed for a value above 9. -/
def Obligations.LargeGlyphAddressOrFault : Prop :=
  ∀ (x : Reg) (s : State),
    ((s.getV x).toNat ≤ 9 → ∃ t, exec (.ldHf x) s = .next t ∧ t.i.toNat = 0x080 + 10 * (s.getV x).toNat ∧
      t = { s with i := t.i, pc := s.pc + 2, lastResult := some .continued }) ∧
    (9 < (s.getV x).toNat → exec (.ldHf x) s = .next { s with
      status := .faulted (.invalidGlyphIndex s.pc (s.getV x))
      lastResult := some (.faulted (.invalidGlyphIndex s.pc (s.getV x))) })

/-- R204 (addresses mod 4096: decision D6): LD B, Vx with its three addresses writable stores hundreds, tens and ones there, and changes no other byte and
nothing else; `I` is unchanged. -/
def Obligations.DecimalStoreWritesThreeDigits : Prop :=
  ∀ (x : Reg) (s : State), (∀ k < 3, 0x200 ≤ ea s k) →
    ∃ t, exec (.ldB x) s = .next t ∧
      (Memory.wf s.mem = true →
        (Memory.read t.mem (ea s 0)).toNat = (s.getV x).toNat / 100 ∧
        (Memory.read t.mem (ea s 1)).toNat = (s.getV x).toNat / 10 % 10 ∧
        (Memory.read t.mem (ea s 2)).toNat = (s.getV x).toNat % 10) ∧
      (∀ a, a ≠ ea s 0 → a ≠ ea s 1 → a ≠ ea s 2 → Memory.read t.mem a = Memory.read s.mem a) ∧
      t = { s with mem := t.mem, pc := s.pc + 2, lastResult := some .continued }

/-- R205 (G23, decisions D6, D30): LD [I], Vx with its addresses writable stores `V[0..x]` from `I` on, changes no other byte,
and moves `I` by `x` unless superMode. -/
def Obligations.BlockStoreWritesTheRegisters : Prop :=
  ∀ (x : Reg) (s : State), (∀ k ≤ x.val, 0x200 ≤ ea s k) →
    ∃ t, exec (.ldMemV x) s = .next t ∧
      (Memory.wf s.mem = true → ∀ r : Reg, r.val ≤ x.val → Memory.read t.mem (ea s r.val) = s.getV r) ∧
      (∀ a, (∀ k ≤ x.val, a ≠ ea s k) → Memory.read t.mem a = Memory.read s.mem a) ∧
      (s.superMode = true → t.i = s.i) ∧ (s.superMode = false → t.i.toNat = (s.i.toNat + x.val) % 65536) ∧
      t = { s with mem := t.mem, i := t.i, pc := s.pc + 2, lastResult := some .continued }

/-- R72, R204, R205, R302 (decisions D5, D6, D32): a store with a target below 0x200 raises ReservedMemoryWrite with the
first such target, and writes nothing. -/
def Obligations.StoresBelowTheProgramFault : Prop :=
  ∀ (x : Reg) (s : State) (k : Nat), ea s k < 0x200 → (∀ j < k, 0x200 ≤ ea s j) →
    (k < 3 → exec (.ldB x) s = .next { s with
      status := .faulted (.reservedMemoryWrite s.pc (ea s k))
      lastResult := some (.faulted (.reservedMemoryWrite s.pc (ea s k))) }) ∧
    (k ≤ x.val → exec (.ldMemV x) s = .next { s with
      status := .faulted (.reservedMemoryWrite s.pc (ea s k))
      lastResult := some (.faulted (.reservedMemoryWrite s.pc (ea s k))) })

/-- R206 (G23, decisions D6, D30): LD Vx, [I] loads `V[0..x]` from `I` on, from any address, and moves `I` by `x` unless
superMode; memory is unchanged. -/
def Obligations.BlockLoadReadsTheRegisters : Prop :=
  ∀ (x : Reg) (s : State), ∃ t, exec (.ldVMem x) s = .next t ∧
    (∀ r : Reg, r.val ≤ x.val → t.getV r = Memory.read s.mem (ea s r.val)) ∧
    (∀ r : Reg, x.val < r.val → t.getV r = s.getV r) ∧
    (s.superMode = true → t.i = s.i) ∧ (s.superMode = false → t.i.toNat = (s.i.toNat + x.val) % 65536) ∧
    t = { s with v := t.v, i := t.i, pc := s.pc + 2, lastResult := some .continued }

/-- R207 (G20): LD R, Vx saves `V[0..x]` into `FR[0..x]` for `x` at most 7, and raises InvalidFlagRegisterRange with
nothing changed for a larger `x`. -/
def Obligations.FlagRegistersSaveOrFault : Prop :=
  ∀ (x : Reg) (s : State),
    (x.val ≤ 7 → ∃ t, exec (.ldRV x) s = .next t ∧
      (∀ k : FlagReg, k.val ≤ x.val → t.getFR k = s.getV (regOfFlagReg k)) ∧
      (∀ k : FlagReg, x.val < k.val → t.getFR k = s.getFR k) ∧
      t = { s with fr := t.fr, pc := s.pc + 2, lastResult := some .continued }) ∧
    (7 < x.val → exec (.ldRV x) s = .next { s with
      status := .faulted (.invalidFlagRegisterRange s.pc x)
      lastResult := some (.faulted (.invalidFlagRegisterRange s.pc x)) })

/-- R208 (G20): LD Vx, R restores `V[0..x]` from `FR[0..x]` for `x` at most 7, and raises InvalidFlagRegisterRange with
nothing changed for a larger `x`. For `x = F` the fault is the model's choice of R208 against R32, which lists Fx85 with
`x = F` as a write of `V[F]` (log entry 23). -/
def Obligations.FlagRegistersRestoreOrFault : Prop :=
  ∀ (x : Reg) (s : State),
    (x.val ≤ 7 → ∃ t, exec (.ldVR x) s = .next t ∧
      (∀ k : FlagReg, k.val ≤ x.val → t.getV (regOfFlagReg k) = s.getFR k) ∧
      (∀ r : Reg, x.val < r.val → t.getV r = s.getV r) ∧
      t = { s with v := t.v, pc := s.pc + 2, lastResult := some .continued }) ∧
    (7 < x.val → exec (.ldVR x) s = .next { s with
      status := .faulted (.invalidFlagRegisterRange s.pc x)
      lastResult := some (.faulted (.invalidFlagRegisterRange s.pc x)) })

/-! ## Timers, random and keys -/

/-- R230, R231 (directions: G5): LD Vx, DT and LD DT, Vx copy, and change nothing else. -/
def Obligations.DelayTimerCopies : Prop :=
  ∀ (x : Reg) (s : State),
    (∃ t, exec (.ldVxDt x) s = .next t ∧ t.getV x = s.delay ∧ (∀ r, r ≠ x → t.getV r = s.getV r) ∧
      t = { s with v := t.v, pc := s.pc + 2, lastResult := some .continued }) ∧
    (∃ t, exec (.ldDtVx x) s = .next t ∧ t.delay = s.getV x ∧
      t = { s with delay := t.delay, pc := s.pc + 2, lastResult := some .continued })

/-- R232 (direction G5, event D18): LD ST, Vx sets `S` and emits exactly one sound event, `Sound(S != 0)`. -/
def Obligations.SoundTimerSetEmitsOneEvent : Prop :=
  ∀ (x : Reg) (s : State), ∃ t, exec (.ldStVx x) s = .next t ∧ t.sound = s.getV x ∧
    t.events = s.events ++ [.sound (decide (t.sound.toNat ≠ 0))] ∧
    t = { s with sound := t.sound, events := t.events, pc := s.pc + 2, lastResult := some .continued }

/-- R245 (decision D11): RND writes a free byte under the mask, so the bits outside the mask are 0; it takes one free
input. It holds whatever the byte is. -/
def Obligations.RandomByteIsMasked : Prop :=
  ∀ (x : Reg) (nn : Byte) (s : State), ∃ t, exec (.rnd x nn) s = .next t ∧
    t.getV x = Config.randomByte s.inputs &&& nn ∧ t.getV x &&& ~~~nn = 0 ∧ (∀ r, r ≠ x → t.getV r = s.getV r) ∧
    t = { s with v := t.v, pc := s.pc + 2, inputs := s.inputs + 1, lastResult := some .continued }

/-- R246, R312 (decision D10, G6; KEY_CODES: log entry 4): LD Vx, K either holds, with no key, `PC` and every register as
they were, or writes the code of a key of KEY_CODES and goes on; it takes one free input either way. -/
def Obligations.KeyWaitHoldsOrTakesAKey : Prop :=
  ∀ (x : Reg) (s : State), ∃ t, exec (.ldVxK x) s = .next t ∧
    ((s.waitKey = none ∧ t = { s with inputs := s.inputs + 1, lastResult := some .waiting }) ∨
     (∃ k ∈ s.keyCodes, s.waitKey = some k ∧ t.getV x = k ∧ (∀ r, r ≠ x → t.getV r = s.getV r) ∧
      t = { s with v := t.v, pc := s.pc + 2, inputs := s.inputs + 1, lastResult := some .continued }))

/-! ## Display -/

/-- R262 (the event: decision D17): CLS clears every pixel and emits one frame; `V[F]` and the resolution are as they
were. -/
def Obligations.ClearBlanksEveryPixel : Prop :=
  ∀ s : State, ∃ t, exec .cls s = .next t ∧ (∀ p, pixelAt t.scr p = false) ∧
    t = { s with
      scr := t.scr, events := s.events ++ [.frame t.scr], pc := s.pc + 2, lastResult := some .continued }

/-- R263 (direction G12): SCD moves every row down by `n`, clears the top `n` rows, wraps nothing and emits one frame; with
odd `n` in low resolution it raises InvalidScroll with nothing changed. -/
def Obligations.ScrollDownOrFault : Prop :=
  ∀ (n : Nibble) (s : State),
    (s.largeScreen = true ∨ n.toNat % 2 = 0 → ∃ t, exec (.scd n) s = .next t ∧
      (∀ (r q : Fin 64) (c : Fin 128), r.val = q.val + n.toNat → pixelAt t.scr (r, c) = pixelAt s.scr (q, c)) ∧
      (∀ (r : Fin 64) (c : Fin 128), r.val < n.toNat → pixelAt t.scr (r, c) = false) ∧
      t = { s with
        scr := t.scr, events := s.events ++ [.frame t.scr], pc := s.pc + 2, lastResult := some .continued }) ∧
    (s.largeScreen = false → n.toNat % 2 = 1 → exec (.scd n) s = .next { s with
      status := .faulted (.invalidScroll s.pc n), lastResult := some (.faulted (.invalidScroll s.pc n)) })

/-- R264, R265 (direction and amount: G12, decision D19): SCR moves every column right by 4 and SCL left by 4, the freed
columns are clear, and each emits one frame. -/
def Obligations.SidewaysScrollsMoveFourColumns : Prop :=
  ∀ s : State,
    (∃ t, exec .scr s = .next t ∧
      (∀ (r : Fin 64) (c d : Fin 128), c.val = d.val + 4 → pixelAt t.scr (r, c) = pixelAt s.scr (r, d)) ∧
      (∀ (r : Fin 64) (c : Fin 128), c.val < 4 → pixelAt t.scr (r, c) = false) ∧
      t = { s with
        scr := t.scr, events := s.events ++ [.frame t.scr], pc := s.pc + 2, lastResult := some .continued }) ∧
    (∃ t, exec .scl s = .next t ∧
      (∀ (r : Fin 64) (c d : Fin 128), d.val = c.val + 4 → pixelAt t.scr (r, c) = pixelAt s.scr (r, d)) ∧
      (∀ (r : Fin 64) (c : Fin 128), 124 ≤ c.val → pixelAt t.scr (r, c) = false) ∧
      t = { s with
        scr := t.scr, events := s.events ++ [.frame t.scr], pc := s.pc + 2, lastResult := some .continued })

/-- R266, R267 (G13, decisions D17, D21, D33): LOW and HIGH select the resolution and change nothing else, the buffer and
the events among it. -/
def Obligations.ResolutionIsSelected : Prop :=
  ∀ s : State,
    exec .low s = .next { s with largeScreen := false, pc := s.pc + 2, lastResult := some .continued } ∧
    exec .high s = .next { s with largeScreen := true, pc := s.pc + 2, lastResult := some .continued }

/-- R260, R268, R271 (G10, G11; decisions D6, D7, D8, D17, D28): a DRW of `n` rows inverts exactly the pixels its 1 bits cover, in
the block of each logical pixel, and `V[F]` is whether one of them was set; also with `x = F` or `y = F`. -/
def Obligations.DrawInvertsTheCoveredPixels : Prop :=
  ∀ (x y : Reg) (n : Nibble) (s : State), n ≠ 0 →
    ∃ t, exec (.drw x y n) s = .next t ∧ Draws (Covers8 s x y n.toNat) s t

/-- R269, R271 (G11; decisions D6, D7, D8, D17, D28; C6): Dxy0 in high resolution draws the 16 x 16 sprite; in low resolution it
clears `V[F]` and does nothing else, with no frame event. -/
def Obligations.WideDrawInHighResolutionOnly : Prop :=
  ∀ (x y : Reg) (s : State),
    (s.largeScreen = true → ∃ t, exec (.drw16 x y) s = .next t ∧ Draws (Covers16 s x y) s t) ∧
    (s.largeScreen = false → ∃ t, exec (.drw16 x y) s = .next t ∧ t.getV vF = 0 ∧
      (∀ r, r ≠ vF → t.getV r = s.getV r) ∧
      t = { s with v := t.v, pc := s.pc + 2, lastResult := some .continued })

/-- R271: within one draw no physical pixel is toggled twice, in either resolution. -/
def Obligations.DrawTogglesNoPixelTwice : Prop :=
  ∀ (x y : Reg) (n : Nibble) (s : State), (drwPixels x y n s).Nodup ∧ (drw16Pixels x y s).Nodup

/-- R272: a second draw of the same sprite at the same coordinates in the same mode, from any state `u` that has the buffer
the first draw left, restores the buffer of before the first, for Dxyn and for Dxy0 in high resolution. The second draw
reports a collision exactly when some covered pixel was clear before the first, which is R271's rule applied twice. R272
disagrees with R271 where every covered pixel was set before the first draw (it says 1 for any sprite with a 1 bit);
there the model follows R268 and R271 (log entry 22). -/
def Obligations.DrawTwiceRestoresTheScreen : Prop :=
  ∀ (x y : Reg) (s t u : State),
    u.scr = t.scr → u.getV x = s.getV x → u.getV y = s.getV y → u.largeScreen = s.largeScreen →
    (∀ n : Nibble, n ≠ 0 → exec (.drw x y n) s = .next t → (∀ r < n.toNat, byteAt u r = byteAt s r) →
      ∃ w, exec (.drw x y n) u = .next w ∧ w.scr = s.scr ∧
        ((∃ p, Covers8 s x y n.toNat p ∧ pixelAt s.scr p = false) → w.getV vF = 1) ∧
        ((¬∃ p, Covers8 s x y n.toNat p ∧ pixelAt s.scr p = false) → w.getV vF = 0)) ∧
    (s.largeScreen = true → exec (.drw16 x y) s = .next t → (∀ r < 32, byteAt u r = byteAt s r) →
      ∃ w, exec (.drw16 x y) u = .next w ∧ w.scr = s.scr ∧
        ((∃ p, Covers16 s x y p ∧ pixelAt s.scr p = false) → w.getV vF = 1) ∧
        ((¬∃ p, Covers16 s x y p ∧ pixelAt s.scr p = false) → w.getV vF = 0))

/-! ## Rules of the whole machine -/

/-- R72, R342 (decision D5): no step changes a byte below 0x200, so the fonts keep their values for the life of the
state. -/
def Obligations.NoStepWritesBelowTheProgram : Prop :=
  ∀ s t : State, step s = .next t → ∀ a < 0x200, Memory.read t.mem a = Memory.read s.mem a

/-- R70, R209: no instruction but Fx33 and Fx55 changes memory. -/
def Obligations.OnlyTwoInstructionsWriteMemory : Prop :=
  ∀ (i : Instr) (s t : State), exec i s = .next t → (∀ x, i ≠ .ldB x) → (∀ x, i ≠ .ldMemV x) → t.mem = s.mem

/-- R43, R8: `superMode` is never written after load, and neither is the parameter `KEY_CODES` that the model holds beside
it (log entry 4). -/
def Obligations.NoStepWritesSuperMode : Prop :=
  ∀ s t : State, step s = .next t → t.superMode = s.superMode ∧ t.keyCodes = s.keyCodes

/-- R36, R135 (that no instruction reads `SC` or the stack is an inference the spec marks as derived): no instruction but
2nnn and 00EE uses the stack or its cursor. Each of the others leaves both as they were, and reads neither: run with
another stack and another cursor, it does the same and leaves those. -/
def Obligations.OnlyCallAndReturnUseTheStack : Prop :=
  ∀ (i : Instr) (s t : State), exec i s = .next t → (∀ a, i ≠ .call a) → i ≠ .ret →
    t.stack = s.stack ∧ t.depth = s.depth ∧
    ∀ (stack : Vector Word 16) (depth : Fin 17),
      exec i { s with stack := stack, depth := depth } = .next { t with stack := stack, depth := depth }

/-- R270, R310, R311 (decisions D17, D18): the events of an instruction, for every instruction: one frame with the new
buffer after CLS, the scrolls that do not fault, DRW, and Dxy0 in high resolution; one sound event after Fx18; else none. -/
def Obligations.EventsAreThoseTabled : Prop :=
  ∀ (i : Instr) (s t : State), exec i s = .next t →
    (i = .cls ∨ i = .scr ∨ i = .scl ∨ (∃ x y n, i = .drw x y n) ∨ ((∃ x y, i = .drw16 x y) ∧ s.largeScreen = true) ∨
      (∃ n : Nibble, i = .scd n ∧ (s.largeScreen = true ∨ n.toNat % 2 = 0)) → t.events = s.events ++ [.frame t.scr]) ∧
    (∀ x, i = .ldStVx x → t.events = s.events ++ [.sound (s.getV x != 0)]) ∧
    (i ≠ .cls → i ≠ .scr → i ≠ .scl → (∀ x y n, i ≠ .drw x y n) → ((∃ x y, i = .drw16 x y) → s.largeScreen = false) →
      (∀ n : Nibble, i = .scd n → s.largeScreen = false ∧ n.toNat % 2 = 1) → (∀ x, i ≠ .ldStVx x) →
      t.events = s.events)

/-- R38, R233: no instruction reads `S`: run with another value of it, an instruction does the same, and `S` is what
Fx18 sets or that other value. -/
def Obligations.NoInstructionReadsTheSoundTimer : Prop :=
  ∀ (i : Instr) (s t : State) (a : Byte), exec i s = .next t →
    exec i { s with sound := a } = .next { t with
      sound := match i with
        | .ldStVx _ => t.sound
        | _ => a }

/-- R273: the program cannot read the frame buffer but through the collision flag of a draw: run with another buffer, an
instruction leaves the same registers but `V[F]`, the same `PC` and the same everything else but buffer and events; and
`V[F]` too is the same unless the instruction is a draw. -/
def Obligations.ScreenIsSeenByCollisionOnly : Prop :=
  ∀ (i : Instr) (s t : State) (a : Screen), exec i s = .next t →
    ∃ u, exec i { s with scr := a } = .next u ∧ (∀ r, r ≠ vF → u.getV r = t.getV r) ∧
      ((∀ x y n, i ≠ .drw x y n) → (∀ x y, i ≠ .drw16 x y) → u.getV vF = t.getV vF) ∧
      u = { t with scr := u.scr, events := u.events, v := u.v }

/-- R34: a program observes `I` only through addresses mod 4096: run with `I` larger by a multiple of 4096, an instruction
does the same but for such a difference in `I`. -/
def Obligations.AddressRegisterIsSeenModulo4096 : Prop :=
  ∀ (i : Instr) (s t : State) (k : Word), exec i s = .next t →
    ∃ u, exec i { s with i := s.i + 4096 * k } = .next u ∧ u.i.toNat % 4096 = t.i.toNat % 4096 ∧ u = { t with i := u.i }
end

