-- ==== Sys2Proof/Laws/Draw.lean ====
section
/-! SUPPORT. The pixels a draw toggles are those its sprite's 1 bits cover (46_display R260, R268, R269). -/

namespace Sys2Proof.Machine

/-- Everything `spritePixels` holds: the plots of the 1 bits. -/
theorem mem_spritePixels {w n : Nat} {row : Nat → BitVec w} {plot : Nat → Nat → List Pixel} {p : Pixel} :
    p ∈ spritePixels n row plot ↔ ∃ r < n, ∃ c < w, (row r).getLsbD (w - 1 - c) = true ∧ p ∈ plot r c := by
  simp only [spritePixels, List.mem_flatMap, List.mem_range]
  refine exists_congr fun r => and_congr_right fun _ => exists_congr fun c => and_congr_right fun _ => ?_
  split <;> simp_all

/-- In high resolution a sprite bit is one pixel (R260). -/
theorem mem_plotHigh {vx vy : Byte} {r c : Nat} {p : Pixel} :
    p ∈ plotHigh vx vy r c ↔ InBlock true (vy.toNat + r) (vx.toNat + c) p := by
  obtain ⟨a, b⟩ := p
  simp [plotHigh, InBlock, Prod.ext_iff, Fin.ext_iff]

/-- In low resolution a sprite bit is a 2 x 2 block (R260). -/
theorem mem_plotLow {vx vy : Byte} {r c : Nat} {p : Pixel} :
    p ∈ plotLow vx vy r c ↔ InBlock false (vy.toNat + r) (vx.toNat + c) p := by
  obtain ⟨⟨a, ha⟩, b, hb⟩ := p
  simp [plotLow, InBlock, Prod.ext_iff, Fin.ext_iff]
  omega

/-- Dxyn toggles the pixels its 1 bits cover (R268). -/
theorem mem_drwPixels {x y : Reg} {n : Nibble} {s : State} {p : Pixel} :
    p ∈ drwPixels x y n s ↔ Covers8 s x y n.toNat p := by
  rw [drwPixels, mem_spritePixels]
  cases hl : s.largeScreen <;> simp only [Covers8, hl, if_true, Bool.false_eq_true, if_false, mem_plotHigh, mem_plotLow]

/-- Bit `c` from the left of a 16-wide row made of two bytes (R269). -/
theorem getLsbD_append_bytes (s : State) (r : Nat) {c : Nat} (hc : c < 16) :
    (byteAt s (2 * r) ++ byteAt s (2 * r + 1)).getLsbD (15 - c) = bit16 s r c := by
  rw [BitVec.getLsbD_append, bit16]
  by_cases h : c < 8
  · simp only [h, if_true, show ¬15 - c < 8 by omega, if_false]
    congr 1
    omega
  · simp only [h, if_false, show 15 - c < 8 by omega, if_true]

/-- Dxy0 in high resolution toggles the pixels its 1 bits cover (R269). -/
theorem mem_drw16Pixels {x y : Reg} {s : State} {p : Pixel} : p ∈ drw16Pixels x y s ↔ Covers16 s x y p := by
  rw [drw16Pixels, mem_spritePixels]
  refine exists_congr fun r => and_congr_right fun _ => exists_congr fun c => and_congr_right fun hc => ?_
  rw [mem_plotHigh, show 16 - 1 - c = 15 - c by rfl, getLsbD_append_bytes s r hc]

end Sys2Proof.Machine
end

