-- ==== Sys2Proof/Laws/Fields.lean ====
section
/-! SUPPORT. The fields of a word built from its layout (30_encoding R100, R101). -/

namespace Sys2Proof

@[simp] theorem nibbleOf_regOf (n : Nibble) : nibbleOf (regOf n) = n := rfl

@[simp] theorem regOf_nibbleOf (x : Reg) : regOf (nibbleOf x) = x := rfl

/-- The number a word is, from its nibbles. -/
theorem toNat_formatXY (o : Nibble) (x y : Reg) (f : Nibble) :
    (formatXY o x y f).toNat = o.toNat * 4096 + x.val * 256 + y.val * 16 + f.toNat := by
  have := o.isLt; have := x.isLt; have := y.isLt; have := f.isLt
  simp only [formatXY, nibbleOf, BitVec.toNat_append, BitVec.toNat_ofFin]
  rw [← Nat.shiftLeft_add_eq_or_of_lt (by omega), ← Nat.shiftLeft_add_eq_or_of_lt (by omega),
    ← Nat.shiftLeft_add_eq_or_of_lt (by omega)]
  simp only [Nat.shiftLeft_eq]
  omega

theorem toNat_formatXB (o : Nibble) (x : Reg) (b : Byte) :
    (formatXB o x b).toNat = o.toNat * 4096 + x.val * 256 + b.toNat := by
  have := o.isLt; have := x.isLt; have := b.isLt
  simp only [formatXB, nibbleOf, BitVec.toNat_append, BitVec.toNat_ofFin]
  rw [← Nat.shiftLeft_add_eq_or_of_lt (by omega), ← Nat.shiftLeft_add_eq_or_of_lt (by omega)]
  simp only [Nat.shiftLeft_eq]
  omega

theorem toNat_formatA (o : Nibble) (nnn : Addr12) : (formatA o nnn).toNat = o.toNat * 4096 + nnn.toNat := by
  have := o.isLt; have := nnn.isLt
  simp only [formatA, BitVec.toNat_append]
  rw [← Nat.shiftLeft_add_eq_or_of_lt (by omega)]
  simp only [Nat.shiftLeft_eq]

theorem toNat_op1 (w : Word) : (op1 w).toNat = w.toNat / 4096 := by
  have := w.isLt
  simp only [op1, BitVec.extractLsb'_toNat, Nat.shiftRight_eq_div_pow]
  omega

theorem toNat_op2 (w : Word) : (op2 w).toNat = w.toNat / 256 % 16 := by
  simp only [op2, BitVec.extractLsb'_toNat, Nat.shiftRight_eq_div_pow]

theorem toNat_op3 (w : Word) : (op3 w).toNat = w.toNat / 16 % 16 := by
  simp only [op3, BitVec.extractLsb'_toNat, Nat.shiftRight_eq_div_pow]

theorem toNat_op4 (w : Word) : (op4 w).toNat = w.toNat % 16 := by
  simp only [op4, BitVec.extractLsb'_toNat, Nat.shiftRight_eq_div_pow]
  rw [Nat.pow_zero, Nat.div_one]

theorem toNat_byte0 (w : Word) : (byte0 w).toNat = w.toNat / 256 := by
  have := w.isLt
  simp only [byte0, BitVec.extractLsb'_toNat, Nat.shiftRight_eq_div_pow]
  omega

theorem toNat_byte1 (w : Word) : (byte1 w).toNat = w.toNat % 256 := by
  simp only [byte1, BitVec.extractLsb'_toNat, Nat.shiftRight_eq_div_pow]
  rw [Nat.pow_zero, Nat.div_one]

theorem toNat_fieldNnn (w : Word) : (fieldNnn w).toNat = w.toNat % 4096 := by
  simp only [fieldNnn, BitVec.extractLsb'_toNat, Nat.shiftRight_eq_div_pow]
  rw [Nat.pow_zero, Nat.div_one]

theorem toNat_wordOf (b0 b1 : Byte) : (wordOf b0 b1).toNat = b0.toNat * 256 + b1.toNat := by
  have := b0.isLt; have := b1.isLt
  simp only [wordOf, BitVec.toNat_append]
  rw [← Nat.shiftLeft_add_eq_or_of_lt (by omega)]
  simp only [Nat.shiftLeft_eq]

@[simp] theorem wordOf_byte0_byte1 (w : Word) : wordOf (byte0 w) (byte1 w) = w := by
  apply BitVec.eq_of_toNat_eq
  rw [toNat_wordOf, toNat_byte0, toNat_byte1]
  omega

@[simp] theorem byte0_wordOf (b0 b1 : Byte) : byte0 (wordOf b0 b1) = b0 := by
  apply BitVec.eq_of_toNat_eq
  have := b1.isLt
  rw [toNat_byte0, toNat_wordOf]
  omega

@[simp] theorem byte1_wordOf (b0 b1 : Byte) : byte1 (wordOf b0 b1) = b1 := by
  apply BitVec.eq_of_toNat_eq
  have := b1.isLt
  rw [toNat_byte1, toNat_wordOf]
  omega

/-- A register index from its nibble. -/
theorem val_regOf (n : Nibble) : (regOf n).val = n.toNat := rfl

@[simp] theorem op1_formatA (o : Nibble) (nnn : Addr12) : op1 (formatA o nnn) = o := by
  apply BitVec.eq_of_toNat_eq
  have := nnn.isLt
  rw [toNat_op1, toNat_formatA]
  omega

@[simp] theorem fieldNnn_formatA (o : Nibble) (nnn : Addr12) : fieldNnn (formatA o nnn) = nnn := by
  apply BitVec.eq_of_toNat_eq
  have := nnn.isLt
  rw [toNat_fieldNnn, toNat_formatA]
  omega

@[simp] theorem op1_formatXB (o : Nibble) (x : Reg) (b : Byte) : op1 (formatXB o x b) = o := by
  apply BitVec.eq_of_toNat_eq
  have := x.isLt; have := b.isLt
  rw [toNat_op1, toNat_formatXB]
  omega

@[simp] theorem op2_formatXB (o : Nibble) (x : Reg) (b : Byte) : op2 (formatXB o x b) = nibbleOf x := by
  apply BitVec.eq_of_toNat_eq
  have := x.isLt; have := b.isLt
  rw [toNat_op2, toNat_formatXB]
  simp only [nibbleOf, BitVec.toNat_ofFin]
  omega

@[simp] theorem byte1_formatXB (o : Nibble) (x : Reg) (b : Byte) : byte1 (formatXB o x b) = b := by
  apply BitVec.eq_of_toNat_eq
  have := x.isLt; have := b.isLt
  rw [toNat_byte1, toNat_formatXB]
  omega

@[simp] theorem op1_formatXY (o : Nibble) (x y : Reg) (f : Nibble) : op1 (formatXY o x y f) = o := by
  apply BitVec.eq_of_toNat_eq
  have := x.isLt; have := y.isLt; have := f.isLt
  rw [toNat_op1, toNat_formatXY]
  omega

@[simp] theorem op2_formatXY (o : Nibble) (x y : Reg) (f : Nibble) : op2 (formatXY o x y f) = nibbleOf x := by
  apply BitVec.eq_of_toNat_eq
  have := x.isLt; have := y.isLt; have := f.isLt
  rw [toNat_op2, toNat_formatXY]
  simp only [nibbleOf, BitVec.toNat_ofFin]
  omega

@[simp] theorem op3_formatXY (o : Nibble) (x y : Reg) (f : Nibble) : op3 (formatXY o x y f) = nibbleOf y := by
  apply BitVec.eq_of_toNat_eq
  have := x.isLt; have := y.isLt; have := f.isLt
  rw [toNat_op3, toNat_formatXY]
  simp only [nibbleOf, BitVec.toNat_ofFin]
  omega

@[simp] theorem op4_formatXY (o : Nibble) (x y : Reg) (f : Nibble) : op4 (formatXY o x y f) = f := by
  apply BitVec.eq_of_toNat_eq
  have := x.isLt; have := y.isLt; have := f.isLt
  rw [toNat_op4, toNat_formatXY]
  omega

/-- The decoder on the two bytes of a word. -/
@[simp] theorem decode_bytes (w : Word) : decode (byte0 w) (byte1 w) = decodeWord w := by
  rw [decode, wordOf_byte0_byte1]

end Sys2Proof
end

