-- ==== Sys2Proof/Laws/Memory.lean ====
section
/-! SUPPORT. Memory: read after write, writes elsewhere, and the canonical form every operation keeps. -/

namespace Sys2Proof.Machine

@[simp] theorem Memory.lookup_nil (a : Nat) : Memory.lookup [] a = none := rfl

@[simp] theorem Memory.lookup_cons (b : Nat) (w : Byte) (m : Memory) (a : Nat) :
    Memory.lookup ((b, w) :: m) a = if b = a then some w else Memory.lookup m a := rfl

@[simp] theorem Memory.read_nil (a : Nat) : Memory.read [] a = initialByte a := rfl

@[simp] theorem Memory.read_cons (b : Nat) (w : Byte) (m : Memory) (a : Nat) :
    Memory.read ((b, w) :: m) a = if b = a then w else Memory.read m a := by
  simp only [Memory.read, Memory.lookup_cons]
  split <;> rfl

/-- Below the first listed address every byte reads as its initial value. -/
theorem Memory.read_below {m : Memory} {lo a : Nat} (h : Memory.wfFrom lo m = true) (ha : a < lo) :
    Memory.read m a = initialByte a := by
  induction m generalizing lo with
  | nil => rfl
  | cons c m ih =>
    obtain ⟨b, w⟩ := c
    simp only [Memory.wfFrom, Bool.and_eq_true, decide_eq_true_eq] at h
    rw [Memory.read_cons, if_neg (by omega)]
    exact ih h.2 (by omega)

/-- The canonical form from `lo` up is one from any lower address up. -/
theorem Memory.wfFrom_mono {m : Memory} {lo lo' : Nat} (h : Memory.wfFrom lo m = true) (hle : lo' ≤ lo) :
    Memory.wfFrom lo' m = true := by
  cases m with
  | nil => rfl
  | cons c m =>
    obtain ⟨b, w⟩ := c
    simp only [Memory.wfFrom, Bool.and_eq_true, decide_eq_true_eq] at h ⊢
    exact ⟨⟨⟨by omega, h.1.1.2⟩, h.1.2⟩, h.2⟩

/-- Inserting a cell reads back. -/
theorem Memory.read_insertCell_self {m : Memory} {lo : Nat} (a : Nat) (v : Byte) (h : Memory.wfFrom lo m = true) :
    Memory.read (Memory.insertCell m a v) a = v := by
  induction m generalizing lo with
  | nil =>
    simp only [Memory.insertCell]
    split <;> simp_all
  | cons c m ih =>
    obtain ⟨b, w⟩ := c
    simp only [Memory.wfFrom, Bool.and_eq_true, decide_eq_true_eq] at h
    have below : a ≤ b → Memory.read m a = initialByte a := fun hab => Memory.read_below h.2 (by omega)
    simp only [Memory.insertCell]
    split_ifs with h1 h2 h3 h4
    · rw [Memory.read_cons, if_neg (by omega), below (by omega), h2]
    · simp
    · rw [below (by omega), h4]
    · simp
    · rw [Memory.read_cons, if_neg (by omega)]
      exact ih h.2

/-- Inserting a cell leaves every other address alone, in any list of cells. -/
theorem Memory.read_insertCell_ne (m : Memory) (a b : Nat) (v : Byte) (hne : b ≠ a) :
    Memory.read (Memory.insertCell m a v) b = Memory.read m b := by
  induction m with
  | nil =>
    simp only [Memory.insertCell]
    split
    · rfl
    · rw [Memory.read_cons, if_neg (by omega)]
  | cons c m ih =>
    obtain ⟨e, w⟩ := c
    simp only [Memory.insertCell]
    split_ifs with h1 h2 h3 h4
    · rfl
    · rw [Memory.read_cons, if_neg (by omega)]
    · rw [Memory.read_cons, if_neg (by omega)]
    · rw [Memory.read_cons, Memory.read_cons, if_neg (by omega), if_neg (by omega)]
    · rw [Memory.read_cons, Memory.read_cons, ih]

/-- Inserting a cell keeps the canonical form. -/
theorem Memory.wfFrom_insertCell {m : Memory} {lo a : Nat} (v : Byte) (h : Memory.wfFrom lo m = true)
    (hlo : lo ≤ a) (ha : a < Config.memSize) : Memory.wfFrom lo (Memory.insertCell m a v) = true := by
  induction m generalizing lo with
  | nil =>
    simp only [Memory.insertCell]
    split
    · rfl
    · simp_all [Memory.wfFrom]
  | cons c m ih =>
    obtain ⟨b, w⟩ := c
    have hh := h
    simp only [Memory.wfFrom, Bool.and_eq_true, decide_eq_true_eq] at hh
    simp only [Memory.insertCell]
    split_ifs with h1 h2 h3 h4
    · exact h
    · simp only [Memory.wfFrom, Bool.and_eq_true, decide_eq_true_eq, bne_iff_ne, ne_eq] at hh ⊢
      exact ⟨⟨⟨hlo, ha⟩, h2⟩, ⟨⟨by omega, hh.1.1.2⟩, hh.1.2⟩, hh.2⟩
    · exact Memory.wfFrom_mono hh.2 (by omega)
    · simp only [Memory.wfFrom, Bool.and_eq_true, decide_eq_true_eq, bne_iff_ne, ne_eq]
      exact ⟨⟨⟨hlo, ha⟩, h4⟩, h3 ▸ hh.2⟩
    · simp only [Memory.wfFrom, Bool.and_eq_true, decide_eq_true_eq]
      exact ⟨⟨⟨hh.1.1.1, hh.1.1.2⟩, hh.1.2⟩, ih hh.2 (by omega)⟩

/-- A read after a write to the same place gives the byte written (R80). -/
theorem Memory.read_write_self {m : Memory} {a : Nat} (v : Byte) (h : Memory.wf m = true) (ha : a < Config.memSize) :
    Memory.read (Memory.write m a v) a = v := by
  rw [Memory.write, if_pos ha]
  exact Memory.read_insertCell_self a v h

/-- A write leaves every other place alone. -/
theorem Memory.read_write_ne (m : Memory) {a b : Nat} (v : Byte) (hne : b ≠ a) :
    Memory.read (Memory.write m a v) b = Memory.read m b := by
  rw [Memory.write]
  split
  · exact Memory.read_insertCell_ne m a b v hne
  · rfl

/-- A write keeps the canonical form. -/
theorem Memory.wf_write {m : Memory} (a : Nat) (v : Byte) (h : Memory.wf m = true) :
    Memory.wf (Memory.write m a v) = true := by
  rw [Memory.write]
  split
  · exact Memory.wfFrom_insertCell v h (Nat.zero_le a) ‹_›
  · exact h

@[simp] theorem Memory.writeCells_nil (m : Memory) : Memory.writeCells m [] = m := rfl

@[simp] theorem Memory.writeCells_cons (m : Memory) (c : Host.Cell) (cs : List Host.Cell) :
    Memory.writeCells m (c :: cs) = Memory.writeCells (Memory.write m c.1 c.2) cs := rfl

/-- Several writes keep the canonical form. -/
theorem Memory.wf_writeCells {m : Memory} (cs : List Host.Cell) (h : Memory.wf m = true) :
    Memory.wf (Memory.writeCells m cs) = true := by
  induction cs generalizing m with
  | nil => exact h
  | cons c cs ih => exact ih (Memory.wf_write c.1 c.2 h)

/-- Several writes leave every address outside theirs alone. -/
theorem Memory.read_writeCells_of_notMem (m : Memory) (cs : List Host.Cell) (a : Nat)
    (h : ∀ c ∈ cs, c.1 ≠ a) : Memory.read (Memory.writeCells m cs) a = Memory.read m a := by
  induction cs generalizing m with
  | nil => rfl
  | cons c cs ih =>
    rw [Memory.writeCells_cons, ih _ fun d hd => h d (List.mem_cons_of_mem _ hd)]
    exact Memory.read_write_ne m c.2 (h c List.mem_cons_self).symm

/-- Several writes at different addresses each read back. -/
theorem Memory.read_writeCells_of_mem {m : Memory} {cs : List Host.Cell} {c : Host.Cell} (h : Memory.wf m = true)
    (hd : (cs.map Prod.fst).Nodup) (ha : ∀ c ∈ cs, c.1 < Config.memSize) (hc : c ∈ cs) :
    Memory.read (Memory.writeCells m cs) c.1 = c.2 := by
  induction cs generalizing m with
  | nil => cases hc
  | cons d cs ih =>
    simp only [List.map_cons, List.nodup_cons] at hd
    rw [Memory.writeCells_cons]
    rcases List.mem_cons.mp hc with rfl | hc
    · rw [Memory.read_writeCells_of_notMem _ cs c.1 fun e he heq =>
        hd.1 (List.mem_map.mpr ⟨e, he, heq⟩)]
      exact Memory.read_write_self c.2 h (ha c List.mem_cons_self)
    · exact ih (Memory.wf_write d.1 d.2 h) hd.2 (fun e he => ha e (List.mem_cons_of_mem _ he)) hc

/-- The cells of a run of bytes: byte `k` at `base + k`. -/
theorem mem_cellsFrom {base : Nat} {bytes : List Byte} {c : Host.Cell} :
    c ∈ cellsFrom base bytes ↔ ∃ k, bytes[k]? = some c.2 ∧ c.1 = base + k := by
  obtain ⟨a, b⟩ := c
  simp only [cellsFrom, List.mem_map, Prod.exists, Prod.mk.injEq, List.mem_zipIdx_iff_getElem?]
  exact ⟨fun ⟨v, k, h, ha, hv⟩ => ⟨k, hv ▸ h, ha.symm⟩, fun ⟨k, h, ha⟩ => ⟨b, k, h, ha.symm, rfl⟩⟩

/-- The addresses of a run of bytes are consecutive. -/
theorem addresses_cellsFrom (base : Nat) (bytes : List Byte) :
    (cellsFrom base bytes).map Prod.fst = List.range' base bytes.length := by
  refine List.ext_getElem (by simp [cellsFrom]) fun k h1 h2 => ?_
  simp [cellsFrom]

/-- What `init` places has different addresses (R340, R342). -/
theorem nodup_loadCells (program : List Byte) (hexFont : HexFont) (largeFont : LargeFont) :
    ((loadCells program hexFont largeFont).map Prod.fst).Nodup := by
  simp only [loadCells, List.map_append, addresses_cellsFrom, Vector.length_toList, Config.hexFontBase,
    Config.largeFontBase, Config.progBase]
  refine List.nodup_append.mpr ⟨List.nodup_append.mpr ⟨List.nodup_range', List.nodup_range', ?_⟩, List.nodup_range', ?_⟩
  all_goals
    intro a ha b hb
    simp only [List.mem_append, List.mem_range'_1] at ha hb
    omega

/-- What `init` places of a program that fits lies in memory (R341). -/
theorem loadCells_lt {program : List Byte} (hexFont : HexFont) (largeFont : LargeFont)
    (h : program.length ≤ Config.maxProgram) :
    ∀ c ∈ loadCells program hexFont largeFont, c.1 < Config.memSize := by
  intro c hc
  have hm : c.1 ∈ (loadCells program hexFont largeFont).map Prod.fst := List.mem_map_of_mem hc
  simp only [loadCells, List.map_append, addresses_cellsFrom, Vector.length_toList, List.mem_append,
    List.mem_range'_1, Config.maxProgram, Config.memSize, Config.progBase, Config.hexFontBase, Config.largeFontBase] at *
  omega

/-- The default fonts are what an unlisted address reads as, so placing them lists nothing (R342). -/
theorem writeCells_default_fonts :
    Memory.writeCells [] (loadCells [] Config.defaultHexFont Config.defaultLargeFont) = [] := by
  decide +kernel

/-- Placing a word keeps the canonical form. -/
theorem wf_placeWord {m : Memory} (a : Nat) (w : Word) (h : Memory.wf m = true) :
    Memory.wf (placeWord m a w) = true :=
  Memory.wf_writeCells _ h

/-- Reset memory is in the canonical form: it lists nothing. -/
theorem wf_reset : Memory.wf State.reset.mem = true := rfl

/-- Two memories in the canonical form that read the same everywhere are equal data. -/
theorem Memory.ext_of_wfFrom {m n : Memory} {lo : Nat} (hm : Memory.wfFrom lo m = true) (hn : Memory.wfFrom lo n = true)
    (h : ∀ a, Memory.read m a = Memory.read n a) : m = n := by
  induction m generalizing n lo with
  | nil =>
    cases n with
    | nil => rfl
    | cons c n =>
      obtain ⟨b, w⟩ := c
      simp only [Memory.wfFrom, Bool.and_eq_true, bne_iff_ne, ne_eq] at hn
      have := h b
      simp only [Memory.read_nil, Memory.read_cons, if_true] at this
      exact absurd this.symm hn.1.2
  | cons c m ih =>
    obtain ⟨a, v⟩ := c
    cases n with
    | nil =>
      simp only [Memory.wfFrom, Bool.and_eq_true, bne_iff_ne, ne_eq] at hm
      have := h a
      simp only [Memory.read_nil, Memory.read_cons, if_true] at this
      exact absurd this hm.1.2
    | cons d n =>
      obtain ⟨b, w⟩ := d
      simp only [Memory.wfFrom, Bool.and_eq_true, decide_eq_true_eq, bne_iff_ne, ne_eq] at hm hn
      have hab : a = b := by
        rcases Nat.lt_trichotomy a b with hlt | heq | hgt
        · have := h a
          rw [Memory.read_cons, Memory.read_cons, if_pos rfl, if_neg (by omega), Memory.read_below hn.2 (by omega)] at this
          exact absurd this hm.1.2
        · exact heq
        · have := h b
          rw [Memory.read_cons, Memory.read_cons, if_pos rfl, if_neg (by omega), Memory.read_below hm.2 (by omega)] at this
          exact absurd this.symm hn.1.2
      subst hab
      have hvw : v = w := by simpa using h a
      subst hvw
      refine congrArg _ (ih hm.2 hn.2 fun e => ?_)
      rcases Nat.lt_trichotomy e (a + 1) with hlt | heq | hgt
      · rw [Memory.read_below hm.2 hlt, Memory.read_below hn.2 hlt]
      all_goals
        have := h e
        rwa [Memory.read_cons, Memory.read_cons, if_neg (by omega), if_neg (by omega)] at this

end Sys2Proof.Machine
end

