-- ==== Sys2Proof/Laws/State.lean ====
section
/-! SUPPORT. One lemma per field per named update of the state, so that no proof unfolds a record update. -/

namespace Sys2Proof.Machine

section setVFields
variable (s : State) (x : Reg) (b : Byte)

@[simp] theorem State.setV_v : (s.setV x b).v = s.v.set x.val b x.isLt := rfl
@[simp] theorem State.setV_i : (s.setV x b).i = s.i := rfl
@[simp] theorem State.setV_pc : (s.setV x b).pc = s.pc := rfl
@[simp] theorem State.setV_depth : (s.setV x b).depth = s.depth := rfl
@[simp] theorem State.setV_stack : (s.setV x b).stack = s.stack := rfl
@[simp] theorem State.setV_delay : (s.setV x b).delay = s.delay := rfl
@[simp] theorem State.setV_sound : (s.setV x b).sound = s.sound := rfl
@[simp] theorem State.setV_fr : (s.setV x b).fr = s.fr := rfl
@[simp] theorem State.setV_mem : (s.setV x b).mem = s.mem := rfl
@[simp] theorem State.setV_scr : (s.setV x b).scr = s.scr := rfl
@[simp] theorem State.setV_largeScreen : (s.setV x b).largeScreen = s.largeScreen := rfl
@[simp] theorem State.setV_superMode : (s.setV x b).superMode = s.superMode := rfl
@[simp] theorem State.setV_keyCodes : (s.setV x b).keyCodes = s.keyCodes := rfl
@[simp] theorem State.setV_status : (s.setV x b).status = s.status := rfl
@[simp] theorem State.setV_events : (s.setV x b).events = s.events := rfl
@[simp] theorem State.setV_lastResult : (s.setV x b).lastResult = s.lastResult := rfl
@[simp] theorem State.setV_inputs : (s.setV x b).inputs = s.inputs := rfl
@[simp] theorem State.setV_ticksDue : (s.setV x b).ticksDue = s.ticksDue := rfl
@[simp] theorem State.setV_getFR (j : FlagReg) : State.getFR (s.setV x b) j = s.getFR j := rfl
@[simp] theorem State.setV_sc : State.sc (s.setV x b) = s.sc := rfl

end setVFields

section setFRFields
variable (s : State) (k : FlagReg) (b : Byte)

@[simp] theorem State.setFR_v : (s.setFR k b).v = s.v := rfl
@[simp] theorem State.setFR_i : (s.setFR k b).i = s.i := rfl
@[simp] theorem State.setFR_pc : (s.setFR k b).pc = s.pc := rfl
@[simp] theorem State.setFR_depth : (s.setFR k b).depth = s.depth := rfl
@[simp] theorem State.setFR_stack : (s.setFR k b).stack = s.stack := rfl
@[simp] theorem State.setFR_delay : (s.setFR k b).delay = s.delay := rfl
@[simp] theorem State.setFR_sound : (s.setFR k b).sound = s.sound := rfl
@[simp] theorem State.setFR_fr : (s.setFR k b).fr = s.fr.set k.val b k.isLt := rfl
@[simp] theorem State.setFR_mem : (s.setFR k b).mem = s.mem := rfl
@[simp] theorem State.setFR_scr : (s.setFR k b).scr = s.scr := rfl
@[simp] theorem State.setFR_largeScreen : (s.setFR k b).largeScreen = s.largeScreen := rfl
@[simp] theorem State.setFR_superMode : (s.setFR k b).superMode = s.superMode := rfl
@[simp] theorem State.setFR_keyCodes : (s.setFR k b).keyCodes = s.keyCodes := rfl
@[simp] theorem State.setFR_status : (s.setFR k b).status = s.status := rfl
@[simp] theorem State.setFR_events : (s.setFR k b).events = s.events := rfl
@[simp] theorem State.setFR_lastResult : (s.setFR k b).lastResult = s.lastResult := rfl
@[simp] theorem State.setFR_inputs : (s.setFR k b).inputs = s.inputs := rfl
@[simp] theorem State.setFR_ticksDue : (s.setFR k b).ticksDue = s.ticksDue := rfl
@[simp] theorem State.setFR_getV (y : Reg) : State.getV (s.setFR k b) y = s.getV y := rfl
@[simp] theorem State.setFR_sc : State.sc (s.setFR k b) = s.sc := rfl

end setFRFields

section setResultFlagFields
variable (s : State) (x : Reg) (r f : Byte)

@[simp] theorem State.setResultFlag_v : (s.setResultFlag x r f).v = ((s.setV x r).setV vF f).v := rfl
@[simp] theorem State.setResultFlag_i : (s.setResultFlag x r f).i = s.i := rfl
@[simp] theorem State.setResultFlag_pc : (s.setResultFlag x r f).pc = s.pc := rfl
@[simp] theorem State.setResultFlag_depth : (s.setResultFlag x r f).depth = s.depth := rfl
@[simp] theorem State.setResultFlag_stack : (s.setResultFlag x r f).stack = s.stack := rfl
@[simp] theorem State.setResultFlag_delay : (s.setResultFlag x r f).delay = s.delay := rfl
@[simp] theorem State.setResultFlag_sound : (s.setResultFlag x r f).sound = s.sound := rfl
@[simp] theorem State.setResultFlag_fr : (s.setResultFlag x r f).fr = s.fr := rfl
@[simp] theorem State.setResultFlag_mem : (s.setResultFlag x r f).mem = s.mem := rfl
@[simp] theorem State.setResultFlag_scr : (s.setResultFlag x r f).scr = s.scr := rfl
@[simp] theorem State.setResultFlag_largeScreen : (s.setResultFlag x r f).largeScreen = s.largeScreen := rfl
@[simp] theorem State.setResultFlag_superMode : (s.setResultFlag x r f).superMode = s.superMode := rfl
@[simp] theorem State.setResultFlag_keyCodes : (s.setResultFlag x r f).keyCodes = s.keyCodes := rfl
@[simp] theorem State.setResultFlag_status : (s.setResultFlag x r f).status = s.status := rfl
@[simp] theorem State.setResultFlag_events : (s.setResultFlag x r f).events = s.events := rfl
@[simp] theorem State.setResultFlag_lastResult : (s.setResultFlag x r f).lastResult = s.lastResult := rfl
@[simp] theorem State.setResultFlag_inputs : (s.setResultFlag x r f).inputs = s.inputs := rfl
@[simp] theorem State.setResultFlag_ticksDue : (s.setResultFlag x r f).ticksDue = s.ticksDue := rfl
@[simp] theorem State.setResultFlag_getFR (j : FlagReg) : State.getFR (s.setResultFlag x r f) j = s.getFR j := rfl
@[simp] theorem State.setResultFlag_sc : State.sc (s.setResultFlag x r f) = s.sc := rfl

end setResultFlagFields

section takeInputFields
variable (s : State)

@[simp] theorem State.takeInput_v : s.takeInput.v = s.v := rfl
@[simp] theorem State.takeInput_i : s.takeInput.i = s.i := rfl
@[simp] theorem State.takeInput_pc : s.takeInput.pc = s.pc := rfl
@[simp] theorem State.takeInput_depth : s.takeInput.depth = s.depth := rfl
@[simp] theorem State.takeInput_stack : s.takeInput.stack = s.stack := rfl
@[simp] theorem State.takeInput_delay : s.takeInput.delay = s.delay := rfl
@[simp] theorem State.takeInput_sound : s.takeInput.sound = s.sound := rfl
@[simp] theorem State.takeInput_fr : s.takeInput.fr = s.fr := rfl
@[simp] theorem State.takeInput_mem : s.takeInput.mem = s.mem := rfl
@[simp] theorem State.takeInput_scr : s.takeInput.scr = s.scr := rfl
@[simp] theorem State.takeInput_largeScreen : s.takeInput.largeScreen = s.largeScreen := rfl
@[simp] theorem State.takeInput_superMode : s.takeInput.superMode = s.superMode := rfl
@[simp] theorem State.takeInput_keyCodes : s.takeInput.keyCodes = s.keyCodes := rfl
@[simp] theorem State.takeInput_status : s.takeInput.status = s.status := rfl
@[simp] theorem State.takeInput_events : s.takeInput.events = s.events := rfl
@[simp] theorem State.takeInput_lastResult : s.takeInput.lastResult = s.lastResult := rfl
@[simp] theorem State.takeInput_inputs : s.takeInput.inputs = s.inputs + 1 := rfl
@[simp] theorem State.takeInput_ticksDue : s.takeInput.ticksDue = s.ticksDue := rfl
@[simp] theorem State.takeInput_getV (y : Reg) : State.getV s.takeInput y = s.getV y := rfl
@[simp] theorem State.takeInput_getFR (j : FlagReg) : State.getFR s.takeInput j = s.getFR j := rfl
@[simp] theorem State.takeInput_sc : State.sc s.takeInput = s.sc := rfl

end takeInputFields

section completedFields
variable (s : State)

@[simp] theorem completed_v : (completed s).v = s.v := rfl
@[simp] theorem completed_i : (completed s).i = s.i := rfl
@[simp] theorem completed_pc : (completed s).pc = s.pc + 2 := rfl
@[simp] theorem completed_depth : (completed s).depth = s.depth := rfl
@[simp] theorem completed_stack : (completed s).stack = s.stack := rfl
@[simp] theorem completed_delay : (completed s).delay = s.delay := rfl
@[simp] theorem completed_sound : (completed s).sound = s.sound := rfl
@[simp] theorem completed_fr : (completed s).fr = s.fr := rfl
@[simp] theorem completed_mem : (completed s).mem = s.mem := rfl
@[simp] theorem completed_scr : (completed s).scr = s.scr := rfl
@[simp] theorem completed_largeScreen : (completed s).largeScreen = s.largeScreen := rfl
@[simp] theorem completed_superMode : (completed s).superMode = s.superMode := rfl
@[simp] theorem completed_keyCodes : (completed s).keyCodes = s.keyCodes := rfl
@[simp] theorem completed_status : (completed s).status = s.status := rfl
@[simp] theorem completed_events : (completed s).events = s.events := rfl
@[simp] theorem completed_lastResult : (completed s).lastResult = some .continued := rfl
@[simp] theorem completed_inputs : (completed s).inputs = s.inputs := rfl
@[simp] theorem completed_ticksDue : (completed s).ticksDue = s.ticksDue := rfl
@[simp] theorem completed_getV (y : Reg) : State.getV (completed s) y = s.getV y := rfl
@[simp] theorem completed_getFR (j : FlagReg) : State.getFR (completed s) j = s.getFR j := rfl
@[simp] theorem completed_sc : State.sc (completed s) = s.sc := rfl

end completedFields

section holdingFields
variable (s : State)

@[simp] theorem holding_v : (holding s).v = s.v := rfl
@[simp] theorem holding_i : (holding s).i = s.i := rfl
@[simp] theorem holding_pc : (holding s).pc = s.pc := rfl
@[simp] theorem holding_depth : (holding s).depth = s.depth := rfl
@[simp] theorem holding_stack : (holding s).stack = s.stack := rfl
@[simp] theorem holding_delay : (holding s).delay = s.delay := rfl
@[simp] theorem holding_sound : (holding s).sound = s.sound := rfl
@[simp] theorem holding_fr : (holding s).fr = s.fr := rfl
@[simp] theorem holding_mem : (holding s).mem = s.mem := rfl
@[simp] theorem holding_scr : (holding s).scr = s.scr := rfl
@[simp] theorem holding_largeScreen : (holding s).largeScreen = s.largeScreen := rfl
@[simp] theorem holding_superMode : (holding s).superMode = s.superMode := rfl
@[simp] theorem holding_keyCodes : (holding s).keyCodes = s.keyCodes := rfl
@[simp] theorem holding_status : (holding s).status = s.status := rfl
@[simp] theorem holding_events : (holding s).events = s.events := rfl
@[simp] theorem holding_lastResult : (holding s).lastResult = some .waiting := rfl
@[simp] theorem holding_inputs : (holding s).inputs = s.inputs := rfl
@[simp] theorem holding_ticksDue : (holding s).ticksDue = s.ticksDue := rfl
@[simp] theorem holding_getV (y : Reg) : State.getV (holding s) y = s.getV y := rfl
@[simp] theorem holding_getFR (j : FlagReg) : State.getFR (holding s) j = s.getFR j := rfl
@[simp] theorem holding_sc : State.sc (holding s) = s.sc := rfl

end holdingFields

section emitFields
variable (e : Event) (s : State)

@[simp] theorem emit_v : (emit e s).v = s.v := rfl
@[simp] theorem emit_i : (emit e s).i = s.i := rfl
@[simp] theorem emit_pc : (emit e s).pc = s.pc := rfl
@[simp] theorem emit_depth : (emit e s).depth = s.depth := rfl
@[simp] theorem emit_stack : (emit e s).stack = s.stack := rfl
@[simp] theorem emit_delay : (emit e s).delay = s.delay := rfl
@[simp] theorem emit_sound : (emit e s).sound = s.sound := rfl
@[simp] theorem emit_fr : (emit e s).fr = s.fr := rfl
@[simp] theorem emit_mem : (emit e s).mem = s.mem := rfl
@[simp] theorem emit_scr : (emit e s).scr = s.scr := rfl
@[simp] theorem emit_largeScreen : (emit e s).largeScreen = s.largeScreen := rfl
@[simp] theorem emit_superMode : (emit e s).superMode = s.superMode := rfl
@[simp] theorem emit_keyCodes : (emit e s).keyCodes = s.keyCodes := rfl
@[simp] theorem emit_status : (emit e s).status = s.status := rfl
@[simp] theorem emit_events : (emit e s).events = s.events ++ [e] := rfl
@[simp] theorem emit_lastResult : (emit e s).lastResult = s.lastResult := rfl
@[simp] theorem emit_inputs : (emit e s).inputs = s.inputs := rfl
@[simp] theorem emit_ticksDue : (emit e s).ticksDue = s.ticksDue := rfl
@[simp] theorem emit_getV (y : Reg) : State.getV (emit e s) y = s.getV y := rfl
@[simp] theorem emit_getFR (j : FlagReg) : State.getFR (emit e s) j = s.getFR j := rfl
@[simp] theorem emit_sc : State.sc (emit e s) = s.sc := rfl

end emitFields

section showFrameFields
variable (scr : Screen) (s : State)

@[simp] theorem showFrame_v : (showFrame scr s).v = s.v := rfl
@[simp] theorem showFrame_i : (showFrame scr s).i = s.i := rfl
@[simp] theorem showFrame_pc : (showFrame scr s).pc = s.pc := rfl
@[simp] theorem showFrame_depth : (showFrame scr s).depth = s.depth := rfl
@[simp] theorem showFrame_stack : (showFrame scr s).stack = s.stack := rfl
@[simp] theorem showFrame_delay : (showFrame scr s).delay = s.delay := rfl
@[simp] theorem showFrame_sound : (showFrame scr s).sound = s.sound := rfl
@[simp] theorem showFrame_fr : (showFrame scr s).fr = s.fr := rfl
@[simp] theorem showFrame_mem : (showFrame scr s).mem = s.mem := rfl
@[simp] theorem showFrame_scr : (showFrame scr s).scr = scr := rfl
@[simp] theorem showFrame_largeScreen : (showFrame scr s).largeScreen = s.largeScreen := rfl
@[simp] theorem showFrame_superMode : (showFrame scr s).superMode = s.superMode := rfl
@[simp] theorem showFrame_keyCodes : (showFrame scr s).keyCodes = s.keyCodes := rfl
@[simp] theorem showFrame_status : (showFrame scr s).status = s.status := rfl
@[simp] theorem showFrame_events : (showFrame scr s).events = s.events ++ [.frame scr] := rfl
@[simp] theorem showFrame_lastResult : (showFrame scr s).lastResult = s.lastResult := rfl
@[simp] theorem showFrame_inputs : (showFrame scr s).inputs = s.inputs := rfl
@[simp] theorem showFrame_ticksDue : (showFrame scr s).ticksDue = s.ticksDue := rfl
@[simp] theorem showFrame_getV (y : Reg) : State.getV (showFrame scr s) y = s.getV y := rfl
@[simp] theorem showFrame_getFR (j : FlagReg) : State.getFR (showFrame scr s) j = s.getFR j := rfl
@[simp] theorem showFrame_sc : State.sc (showFrame scr s) = s.sc := rfl

end showFrameFields

section drawPixelsFields
variable (ps : List Pixel) (s : State)

@[simp] theorem drawPixels_v : (drawPixels ps s).v = (s.setV vF (collisionFlag (xorPixels s.scr ps).2)).v := rfl
@[simp] theorem drawPixels_i : (drawPixels ps s).i = s.i := rfl
@[simp] theorem drawPixels_pc : (drawPixels ps s).pc = s.pc := rfl
@[simp] theorem drawPixels_depth : (drawPixels ps s).depth = s.depth := rfl
@[simp] theorem drawPixels_stack : (drawPixels ps s).stack = s.stack := rfl
@[simp] theorem drawPixels_delay : (drawPixels ps s).delay = s.delay := rfl
@[simp] theorem drawPixels_sound : (drawPixels ps s).sound = s.sound := rfl
@[simp] theorem drawPixels_fr : (drawPixels ps s).fr = s.fr := rfl
@[simp] theorem drawPixels_mem : (drawPixels ps s).mem = s.mem := rfl
@[simp] theorem drawPixels_scr : (drawPixels ps s).scr = (xorPixels s.scr ps).1 := rfl
@[simp] theorem drawPixels_largeScreen : (drawPixels ps s).largeScreen = s.largeScreen := rfl
@[simp] theorem drawPixels_superMode : (drawPixels ps s).superMode = s.superMode := rfl
@[simp] theorem drawPixels_keyCodes : (drawPixels ps s).keyCodes = s.keyCodes := rfl
@[simp] theorem drawPixels_status : (drawPixels ps s).status = s.status := rfl
@[simp] theorem drawPixels_events : (drawPixels ps s).events = s.events ++ [.frame (xorPixels s.scr ps).1] := rfl
@[simp] theorem drawPixels_lastResult : (drawPixels ps s).lastResult = s.lastResult := rfl
@[simp] theorem drawPixels_inputs : (drawPixels ps s).inputs = s.inputs := rfl
@[simp] theorem drawPixels_ticksDue : (drawPixels ps s).ticksDue = s.ticksDue := rfl
@[simp] theorem drawPixels_getFR (j : FlagReg) : State.getFR (drawPixels ps s) j = s.getFR j := rfl
@[simp] theorem drawPixels_sc : State.sc (drawPixels ps s) = s.sc := rfl

end drawPixelsFields

/-- Reading a register after a write: the written one gives the byte, every other is as it was (R11). -/
@[simp] theorem State.getV_setV (s : State) (x y : Reg) (b : Byte) :
    (s.setV x b).getV y = if x = y then b else s.getV y := by
  simp only [State.getV, State.setV, Vector.getElem_set, Fin.ext_iff]

/-- The same for the flag registers. -/
@[simp] theorem State.getFR_setFR (s : State) (k j : FlagReg) (b : Byte) :
    (s.setFR k b).getFR j = if k = j then b else s.getFR j := by
  simp only [State.getFR, State.setFR, Vector.getElem_set, Fin.ext_iff]

/-- The result is written first and the flag last, so with `x = F` the flag survives (R33, R170). -/
@[simp] theorem State.getV_setResultFlag (s : State) (x y : Reg) (r f : Byte) :
    (s.setResultFlag x r f).getV y = if vF = y then f else if x = y then r else s.getV y := by
  simp only [State.setResultFlag, State.getV_setV]

/-- A draw writes `V[F]` and no other register. -/
@[simp] theorem drawPixels_getV (ps : List Pixel) (s : State) (y : Reg) :
    (drawPixels ps s).getV y = if vF = y then collisionFlag (xorPixels s.scr ps).2 else s.getV y :=
  State.getV_setV s vF y _

/-- Two states with the same registers, read one by one, hold the same register file. -/
theorem State.v_ext {s t : State} (h : ∀ x : Reg, t.getV x = s.getV x) : t.v = s.v :=
  Vector.ext fun k hk => h ⟨k, hk⟩

/-- Two states with the same flag registers, read one by one, hold the same file. -/
theorem State.fr_ext {s t : State} (h : ∀ k : FlagReg, t.getFR k = s.getFR k) : t.fr = s.fr :=
  Vector.ext fun k hk => h ⟨k, hk⟩

end Sys2Proof.Machine
end

