-- ==== Sys2Proof/Laws/Ops.lean ====
section
/-! SUPPORT. One lemma per shared operation that says once everything it can do. -/

namespace Sys2Proof.Machine

@[simp] theorem finish_eq (s : State) : finish s = .next (completed s) := rfl

/-- Taking a fault answers a next state that differs in `status` and the outcome alone (R301). -/
theorem raise_eq (f : FaultKind) (s : State) :
    raise f s = .next { s with status := .faulted f, lastResult := some (.faulted f) } := rfl

/-- A taken skip leaves `PC + 4`, another `PC + 2` (R150). -/
theorem skipIf_eq (b : Bool) (s : State) :
    skipIf b s = .next { s with pc := (if b then s.pc + 4 else s.pc + 2), lastResult := some .continued } := by
  cases b
  · rfl
  · simp only [skipIf, finish, completed, if_true, Host.Outcome.next.injEq, State.mk.injEq, and_true, true_and]
    rw [BitVec.add_assoc]
    rfl

/-- `Push` with room (R37): the entry at the new cursor is the value, the others are as they were. -/
theorem push_of_lt (v : Word) (s : State) (h : s.depth.val < Config.stackDepth) :
    push v s = .ok { s with stack := s.stack.set s.depth.val v h, depth := ⟨s.depth.val + 1, Nat.succ_lt_succ h⟩ } := by
  rw [push, dif_pos h]

/-- `Push` on a full stack (R37). -/
theorem push_full (v : Word) (s : State) (h : s.depth.val = Config.stackDepth) :
    push v s = .error (.stackOverflow s.pc) := by
  rw [push, dif_neg (by omega)]

/-- Everything `Push` can do. -/
theorem push_cases (v : Word) (s : State) :
    (∃ h : s.depth.val < Config.stackDepth, push v s =
      .ok { s with stack := s.stack.set s.depth.val v h, depth := ⟨s.depth.val + 1, Nat.succ_lt_succ h⟩ }) ∨
    (s.depth.val = Config.stackDepth ∧ push v s = .error (.stackOverflow s.pc)) := by
  have := s.depth.isLt
  by_cases h : s.depth.val < Config.stackDepth
  · exact .inl ⟨h, push_of_lt v s h⟩
  · have h16 : s.depth.val = Config.stackDepth := by simp only [Config.stackDepth] at h ⊢; omega
    exact .inr ⟨h16, push_full v s h16⟩

/-- Everything `Pop` can do (R37). -/
theorem pop_cases (s : State) :
    (∃ (k : Fin 16) (d : Fin 17), s.depth.val = k.val + 1 ∧ d.val = k.val ∧
      pop s = .ok (s.stack[k.val], { s with depth := d })) ∨
    (s.depth.val = 0 ∧ pop s = .error (.stackUnderflow s.pc)) := by
  have hd := s.depth.isLt
  by_cases h : 0 < s.depth.val
  · refine .inl ⟨⟨s.depth.val - 1, by omega⟩, ⟨s.depth.val - 1, by omega⟩, by simp only; omega, rfl, ?_⟩
    rw [pop, if_pos h]
  · exact .inr ⟨by omega, by rw [pop, if_neg h]⟩

/-- Everything a checked store can do: the first target below 0x200 raises and nothing else changes, or every target
is at 0x200 or above and the bytes are written (R72, R302). -/
theorem storeOrRaise_cases (cells : List Host.Cell) (after s : State) :
    (∃ c ∈ cells, c.1 < Config.progBase ∧ storeOrRaise cells after s = raise (.reservedMemoryWrite s.pc c.1) s) ∨
    ((∀ c ∈ cells, Config.progBase ≤ c.1) ∧
      storeOrRaise cells after s = .next (completed { after with mem := Memory.writeCells s.mem cells })) := by
  unfold storeOrRaise
  cases h : cells.find? (fun c => decide (c.1 < Config.progBase)) with
  | none =>
    refine .inr ⟨fun c hc => ?_, rfl⟩
    have := List.find?_eq_none.mp h c hc
    simpa using this
  | some c =>
    have hp := List.find?_some h
    exact .inl ⟨c, List.mem_of_find?_eq_some h, by simpa using hp, rfl⟩

/-- A checked store with no reserved target completes. -/
theorem storeOrRaise_of_writable {cells : List Host.Cell} (after s : State)
    (h : ∀ c ∈ cells, Config.progBase ≤ c.1) :
    storeOrRaise cells after s = .next (completed { after with mem := Memory.writeCells s.mem cells }) := by
  have hn : cells.find? (fun c => decide (c.1 < Config.progBase)) = none :=
    List.find?_eq_none.mpr fun c hc => by have := h c hc; simpa using this
  rw [storeOrRaise, hn]
  rfl

/-- A key answer is one of `KEY_CODES` (R312). -/
theorem waitKey_mem {s : State} {k : Byte} (h : s.waitKey = some k) : k ∈ s.keyCodes := by
  unfold State.waitKey at h
  split at h
  · cases h
  · exact List.mem_of_getElem? h

end Sys2Proof.Machine
end

