-- ==== Sys2Proof/Laws/Timers.lean ====
section
/-! SUPPORT. `Tick`, and the host's choice of when to call it: what each changes, field by field. -/

namespace Sys2Proof.Machine

/-- `Tick` of a running machine (R309). -/
theorem tick_of_running {s : State} (h : s.status = .running) :
    tick s = { s with delay := tickTimer s.delay, sound := tickTimer s.sound, events := tickEvents s.sound s.events } := by
  rw [tick, h]

/-- `Tick` changes the timers and the events, nothing else (R309). -/
theorem tick_frame (s : State) :
    tick s = { s with delay := (tick s).delay, sound := (tick s).sound, events := (tick s).events } := by
  unfold tick
  split <;> rfl

section tickFields
variable (s : State)

@[simp] theorem tick_v : (tick s).v = s.v := by rw [tick_frame]
@[simp] theorem tick_i : (tick s).i = s.i := by rw [tick_frame]
@[simp] theorem tick_pc : (tick s).pc = s.pc := by rw [tick_frame]
@[simp] theorem tick_depth : (tick s).depth = s.depth := by rw [tick_frame]
@[simp] theorem tick_stack : (tick s).stack = s.stack := by rw [tick_frame]
@[simp] theorem tick_fr : (tick s).fr = s.fr := by rw [tick_frame]
@[simp] theorem tick_mem : (tick s).mem = s.mem := by rw [tick_frame]
@[simp] theorem tick_scr : (tick s).scr = s.scr := by rw [tick_frame]
@[simp] theorem tick_largeScreen : (tick s).largeScreen = s.largeScreen := by rw [tick_frame]
@[simp] theorem tick_superMode : (tick s).superMode = s.superMode := by rw [tick_frame]
@[simp] theorem tick_keyCodes : (tick s).keyCodes = s.keyCodes := by rw [tick_frame]
@[simp] theorem tick_status : (tick s).status = s.status := by rw [tick_frame]
@[simp] theorem tick_lastResult : (tick s).lastResult = s.lastResult := by rw [tick_frame]
@[simp] theorem tick_inputs : (tick s).inputs = s.inputs := by rw [tick_frame]
@[simp] theorem tick_ticksDue : (tick s).ticksDue = s.ticksDue := by rw [tick_frame]

end tickFields

section scheduleTicksFields
variable (s : State)

@[simp] theorem scheduleTicks_v : (scheduleTicks s).v = s.v := rfl
@[simp] theorem scheduleTicks_i : (scheduleTicks s).i = s.i := rfl
@[simp] theorem scheduleTicks_pc : (scheduleTicks s).pc = s.pc := rfl
@[simp] theorem scheduleTicks_depth : (scheduleTicks s).depth = s.depth := rfl
@[simp] theorem scheduleTicks_stack : (scheduleTicks s).stack = s.stack := rfl
@[simp] theorem scheduleTicks_delay : (scheduleTicks s).delay = s.delay := rfl
@[simp] theorem scheduleTicks_sound : (scheduleTicks s).sound = s.sound := rfl
@[simp] theorem scheduleTicks_fr : (scheduleTicks s).fr = s.fr := rfl
@[simp] theorem scheduleTicks_mem : (scheduleTicks s).mem = s.mem := rfl
@[simp] theorem scheduleTicks_scr : (scheduleTicks s).scr = s.scr := rfl
@[simp] theorem scheduleTicks_largeScreen : (scheduleTicks s).largeScreen = s.largeScreen := rfl
@[simp] theorem scheduleTicks_superMode : (scheduleTicks s).superMode = s.superMode := rfl
@[simp] theorem scheduleTicks_keyCodes : (scheduleTicks s).keyCodes = s.keyCodes := rfl
@[simp] theorem scheduleTicks_status : (scheduleTicks s).status = s.status := rfl
@[simp] theorem scheduleTicks_events : (scheduleTicks s).events = s.events := rfl
@[simp] theorem scheduleTicks_lastResult : (scheduleTicks s).lastResult = s.lastResult := rfl
@[simp] theorem scheduleTicks_inputs : (scheduleTicks s).inputs = s.inputs + 1 := rfl
@[simp] theorem scheduleTicks_ticksDue : (scheduleTicks s).ticksDue = Config.ticksAfter s.inputs := rfl

end scheduleTicksFields

end Sys2Proof.Machine
end

