-- ==== Sys2Proof/Laws/Fetch.lean ====
section
/-! SUPPORT. The fetch, `advance` and `step`: everything they can do. -/

namespace Sys2Proof.Machine

/-- Everything the fetch of two bytes can do (R111, R303). -/
theorem fetchBytes_cases (s : State) :
    (0xFFE < s.pc.toNat ∧ fetchBytes s = .error (.pcOutOfRange s.pc)) ∨
    (s.pc.toNat ≤ 0xFFE ∧ s.pc.toNat % 2 = 1 ∧ fetchBytes s = .error (.misalignedPc s.pc)) ∨
    (s.pc.toNat ≤ 0xFFE ∧ s.pc.toNat % 2 = 0 ∧
      fetchBytes s = .ok (Memory.read s.mem s.pc.toNat, Memory.read s.mem (s.pc.toNat + 1))) := by
  unfold fetchBytes
  by_cases h1 : 0xFFE < s.pc.toNat
  · exact .inl ⟨h1, if_pos h1⟩
  · rw [if_neg h1]
    by_cases h2 : s.pc.toNat % 2 = 1
    · exact .inr (.inl ⟨by omega, h2, if_pos h2⟩)
    · exact .inr (.inr ⟨by omega, by omega, if_neg h2⟩)

/-- An instruction was fetched: `PC` was in range and even, and the two bytes there decode to it. -/
theorem fetchInstr_ok {s : State} {i : Instr} (h : fetchInstr s = .ok i) :
    s.pc.toNat ≤ 0xFFE ∧ s.pc.toNat % 2 = 0 ∧
      decode (Memory.read s.mem s.pc.toNat) (Memory.read s.mem (s.pc.toNat + 1)) = .ok i := by
  unfold fetchInstr at h
  rcases fetchBytes_cases s with ⟨-, hf⟩ | ⟨-, -, hf⟩ | ⟨h1, h2, hf⟩ <;> rw [hf] at h
  · cases h
  · cases h
  · simp only at h
    split at h
    · cases h
    · cases h
      exact ⟨h1, h2, ‹_›⟩

/-- Two bytes at an even `PC` in range that decode are fetched. -/
theorem fetchInstr_of_decode {s : State} {i : Instr} (h1 : s.pc.toNat ≤ 0xFFE) (h2 : s.pc.toNat % 2 = 0)
    (hd : decode (Memory.read s.mem s.pc.toNat) (Memory.read s.mem (s.pc.toNat + 1)) = .ok i) :
    fetchInstr s = .ok i := by
  rcases fetchBytes_cases s with ⟨h, -⟩ | ⟨-, h, -⟩ | ⟨-, -, hf⟩
  · omega
  · omega
  · rw [fetchInstr, hf]
    simp only [hd]

theorem advance_of_running {s : State} (h : s.status = .running) :
    advance s = match fetchInstr s with
      | .error f => raise f s
      | .ok i => exec i s := by
  cases s
  cases h
  rfl

/-- Everything `advance` can do when it answers a next state: the machine was running, and either the fetch faulted or
an instruction was executed (R111). -/
theorem advance_next {s t : State} (h : advance s = .next t) :
    s.status = .running ∧
      ((∃ f, fetchInstr s = .error f ∧ raise f s = .next t) ∨ (∃ i, fetchInstr s = .ok i ∧ exec i s = .next t)) := by
  unfold advance at h
  split at h
  · cases h
  · cases h
  · refine ⟨‹_›, ?_⟩
    split at h
    · exact .inl ⟨_, ‹_›, h⟩
    · exact .inr ⟨_, ‹_›, h⟩

/-- Everything a step can do when it answers a next state: the machine was running, and the host called `Tick` or, with
none due, `advance` (R315). -/
theorem step_next {s t : State} (h : step s = .next t) :
    s.status = .running ∧
      ((∃ n, s.ticksDue = n + 1 ∧ t = hostTick n s) ∨ (s.ticksDue = 0 ∧ advance (scheduleTicks s) = .next t)) := by
  unfold step at h
  split at h
  · refine ⟨‹_›, ?_⟩
    split at h
    · exact .inr ⟨‹_›, h⟩
    · cases h
      exact .inl ⟨_, ‹_›, rfl⟩
  · exact absurd (advance_next h).1 (by simp [*])
  · exact absurd (advance_next h).1 (by simp [*])

/-- With no Tick due a running machine's step is an `advance`, the Ticks after it chosen (R315). -/
theorem step_of_none_due {s : State} (h : s.status = .running) (hd : s.ticksDue = 0) :
    step s = advance (scheduleTicks s) := by
  cases s
  cases h
  cases hd
  rfl

/-- With a Tick due a running machine's step is that Tick (R315). -/
theorem step_of_due {s : State} {n : Nat} (h : s.status = .running) (hd : s.ticksDue = n + 1) :
    step s = .next (hostTick n s) := by
  cases s
  cases h
  cases hd
  rfl

end Sys2Proof.Machine
end

