-- ==== Sys2Proof/Laws/Operands.lean ====
section
/-! SUPPORT. Addresses from `I` and the register blocks. -/

namespace Sys2Proof.Machine

/-- Every data address lies in memory (R78). -/
theorem ea_lt (s : State) (k : Nat) : ea s k < Config.memSize := Nat.mod_lt _ (by decide)

/-- Different bytes of a sequence shorter than memory have different addresses (R78). -/
theorem ea_inj {s : State} {j k : Nat} (hj : j < Config.memSize) (hk : k < Config.memSize) (h : ea s j = ea s k) :
    j = k := by
  simp only [ea, Config.memSize] at *
  omega

theorem mem_allRegs (r : Reg) : r ∈ allRegs := by revert r; decide

theorem mem_allFlagRegs (k : FlagReg) : k ∈ allFlagRegs := by revert k; decide

/-- The block `V[0..x]` holds the registers up to `x` (R102). -/
@[simp] theorem mem_blockRegs (x r : Reg) : r ∈ blockRegs x ↔ r.val ≤ x.val := by
  simp [blockRegs, mem_allRegs]

@[simp] theorem mem_blockFlagRegs (x : Reg) (k : FlagReg) : k ∈ blockFlagRegs x ↔ k.val ≤ x.val := by
  simp [blockFlagRegs, mem_allFlagRegs]

theorem nodup_blockRegs (x : Reg) : (blockRegs x).Nodup := List.Nodup.filter _ (by decide)

@[simp] theorem regOfFlagReg_val (k : FlagReg) : (regOfFlagReg k).val = k.val := rfl

/-- A run of register writes: a register in the list takes its value, every other is as it was. -/
theorem getV_foldl_setV (rs : List Reg) (f : Reg → Byte) (s : State) (y : Reg) :
    (rs.foldl (fun t r => t.setV r (f r)) s).getV y = if y ∈ rs then f y else s.getV y := by
  induction rs generalizing s with
  | nil => simp
  | cons r rs ih =>
    rw [List.foldl_cons, ih]
    by_cases hy : y ∈ rs
    · simp [hy]
    · by_cases hr : r = y
      · simp [hr, hy]
      · have hr' : ¬y = r := fun h => hr h.symm
        simp [hy, hr, hr']

/-- A run of register writes changes nothing but the registers. -/
theorem foldl_setV_eq (rs : List Reg) (f : Reg → Byte) (s : State) :
    rs.foldl (fun t r => t.setV r (f r)) s =
      { s with v := (rs.foldl (fun t r => t.setV r (f r)) s).v } := by
  induction rs generalizing s with
  | nil => rfl
  | cons r rs ih => rw [List.foldl_cons, ih]; rfl

/-- The registers after the load loop of Fx65 (R206). -/
@[simp] theorem loadBlock_getV (s : State) (x y : Reg) :
    (loadBlock s x).getV y = if y.val ≤ x.val then byteAt s y.val else s.getV y := by
  rw [loadBlock, getV_foldl_setV]
  simp

/-- The load loop of Fx65 changes nothing but the registers. -/
theorem loadBlock_eq (s : State) (x : Reg) : loadBlock s x = { s with v := (loadBlock s x).v } :=
  foldl_setV_eq _ _ s

/-- The flag registers after the loop of Fx75 (R207). -/
@[simp] theorem saveFlagBlock_getFR (s : State) (x : Reg) (j : FlagReg) :
    (saveFlagBlock s x).getFR j = if j.val ≤ x.val then s.getV (regOfFlagReg j) else s.getFR j := by
  have key : ∀ (ks : List FlagReg) (t : State),
      (ks.foldl (fun t k => t.setFR k (s.getV (regOfFlagReg k))) t).getFR j =
        if j ∈ ks then s.getV (regOfFlagReg j) else t.getFR j := by
    intro ks
    induction ks with
    | nil => simp
    | cons k ks ih =>
      intro t
      rw [List.foldl_cons, ih]
      by_cases hj : j ∈ ks
      · simp [hj]
      · by_cases hk : k = j
        · simp [hk, hj]
        · have hk' : ¬j = k := fun h => hk h.symm
          simp [hj, hk, hk']
  rw [saveFlagBlock, key]
  simp

/-- The loop of Fx75 changes nothing but the flag registers. -/
theorem saveFlagBlock_eq (s : State) (x : Reg) : saveFlagBlock s x = { s with fr := (saveFlagBlock s x).fr } := by
  have key : ∀ (ks : List FlagReg) (t : State),
      ks.foldl (fun t k => t.setFR k (s.getV (regOfFlagReg k))) t =
        { t with fr := (ks.foldl (fun t k => t.setFR k (s.getV (regOfFlagReg k))) t).fr } := by
    intro ks
    induction ks with
    | nil => intro t; rfl
    | cons k ks ih => intro t; rw [List.foldl_cons, ih]; rfl
  exact key _ s

/-- The registers after the loop of Fx85 (R208), for `x` at most 7. -/
theorem restoreFlagBlock_getV (s : State) (x y : Reg) (hx : x.val ≤ 7) :
    (restoreFlagBlock s x).getV y =
      if h : y.val ≤ x.val then s.getFR ⟨y.val, by omega⟩ else s.getV y := by
  have key : ∀ (ks : List FlagReg) (t : State),
      (ks.foldl (fun t k => t.setV (regOfFlagReg k) (s.getFR k)) t).getV y =
        if h : ∃ k ∈ ks, regOfFlagReg k = y then s.getFR ⟨y.val, by
          obtain ⟨k, -, rfl⟩ := h; exact k.isLt⟩ else t.getV y := by
    intro ks
    induction ks with
    | nil => intro t; simp
    | cons k ks ih =>
      intro t
      rw [List.foldl_cons, ih]
      by_cases hks : ∃ j ∈ ks, regOfFlagReg j = y
      · have : ∃ j ∈ k :: ks, regOfFlagReg j = y := by
          obtain ⟨j, hj, e⟩ := hks
          exact ⟨j, List.mem_cons_of_mem _ hj, e⟩
        rw [dif_pos hks, dif_pos this]
      · by_cases hk : regOfFlagReg k = y
        · rw [dif_neg hks, dif_pos ⟨k, List.mem_cons_self, hk⟩, State.getV_setV, if_pos hk]
          subst hk
          rfl
        · have : ¬∃ j ∈ k :: ks, regOfFlagReg j = y := by
            rintro ⟨j, hj, e⟩
            rcases List.mem_cons.mp hj with rfl | hj
            · exact hk e
            · exact hks ⟨j, hj, e⟩
          rw [dif_neg hks, dif_neg this, State.getV_setV, if_neg hk]
  rw [restoreFlagBlock, key]
  by_cases h : y.val ≤ x.val
  · have : ∃ k ∈ blockFlagRegs x, regOfFlagReg k = y :=
      ⟨⟨y.val, by omega⟩, by simpa using h, Fin.ext rfl⟩
    rw [dif_pos this, dif_pos h]
  · have : ¬∃ k ∈ blockFlagRegs x, regOfFlagReg k = y := by
      rintro ⟨k, hk, rfl⟩
      exact h (by simpa using hk)
    rw [dif_neg this, dif_neg h]

/-- The loop of Fx85 changes nothing but the registers. -/
theorem restoreFlagBlock_eq (s : State) (x : Reg) :
    restoreFlagBlock s x = { s with v := (restoreFlagBlock s x).v } := by
  have key : ∀ (ks : List FlagReg) (t : State),
      ks.foldl (fun t k => t.setV (regOfFlagReg k) (s.getFR k)) t =
        { t with v := (ks.foldl (fun t k => t.setV (regOfFlagReg k) (s.getFR k)) t).v } := by
    intro ks
    induction ks with
    | nil => intro t; rfl
    | cons k ks ih => intro t; rw [List.foldl_cons, ih]; rfl
  exact key _ s

/-- The cells of Fx55 are those of the registers up to `x` (R205). -/
theorem mem_blockCells {s : State} {x : Reg} {c : Host.Cell} :
    c ∈ blockCells s x ↔ ∃ r : Reg, r.val ≤ x.val ∧ c = (ea s r.val, s.getV r) := by
  simp only [blockCells, List.mem_map, mem_blockRegs, eq_comm]

/-- The cells of Fx55 have different addresses. -/
theorem nodup_blockCells (s : State) (x : Reg) : ((blockCells s x).map Prod.fst).Nodup := by
  rw [blockCells, List.map_map]
  refine (nodup_blockRegs x).map fun a b h => ?_
  have := a.isLt; have := b.isLt
  exact Fin.ext (ea_inj (s := s) (by simp only [Config.memSize]; omega) (by simp only [Config.memSize]; omega) h)

/-- The cells of Fx33 have different addresses. -/
theorem nodup_decimalCells (s : State) (b : Byte) : ((decimalCells s b).map Prod.fst).Nodup := by
  have h01 : ea s 0 ≠ ea s 1 := fun h => absurd (ea_inj (by decide) (by decide) h) (by decide)
  have h02 : ea s 0 ≠ ea s 2 := fun h => absurd (ea_inj (by decide) (by decide) h) (by decide)
  have h12 : ea s 1 ≠ ea s 2 := fun h => absurd (ea_inj (by decide) (by decide) h) (by decide)
  simp [decimalCells, h01, h02, h12]

end Sys2Proof.Machine
end

