-- ==== Sys2Proof/Laws/Screen.lean ====
section
/-! SUPPORT. The frame buffer pixel by pixel: scrolls, single toggles, and runs of toggles. -/

namespace Sys2Proof.Machine

/-- Two buffers with the same pixels are the same buffer. -/
theorem screen_ext {a b : Screen} (h : ∀ p : Pixel, pixelAt a p = pixelAt b p) : a = b := by
  refine Vector.ext fun r hr => BitVec.eq_of_getLsbD_eq fun c hc => ?_
  exact h (⟨r, hr⟩, ⟨c, hc⟩)

/-- `XorPixel` inverts its pixel and no other (R261). -/
@[simp] theorem pixelAt_togglePixel (scr : Screen) (p q : Pixel) :
    pixelAt (togglePixel scr p) q = if p = q then !pixelAt scr q else pixelAt scr q := by
  obtain ⟨r, c⟩ := p
  obtain ⟨r', c'⟩ := q
  simp only [pixelAt, togglePixel, Vector.getElem_set, Prod.mk.injEq, Fin.ext_iff]
  by_cases hr : r.val = r'.val
  · have hr' := Fin.ext hr
    subst hr'
    by_cases hc : c.val = c'.val
    · simp [hc]
    · have hc' : ¬c'.val = c.val := fun e => hc e.symm
      simp [hc, hc']
  · simp [hr]

@[simp] theorem pixelAt_screenOfRows (f : Nat → Row) (p : Pixel) :
    pixelAt (screenOfRows f) p = (f p.1.val).getLsbD p.2.val := by
  simp [pixelAt, screenOfRows]

theorem rowAt_of_lt (scr : Screen) (r : Nat) (h : r < 64) : rowAt scr r = scr[r] := by rw [rowAt, dif_pos h]

@[simp] theorem pixelAt_blankScreen (p : Pixel) : pixelAt blankScreen p = false := by
  simp [pixelAt, blankScreen]

/-- Scrolling down by `n` (R263). -/
theorem pixelAt_scrollDown (n : Nat) (scr : Screen) (r : Fin 64) (c : Fin 128) :
    pixelAt (scrollDown n scr) (r, c) =
      if n ≤ r.val then pixelAt scr (⟨r.val - n, by omega⟩, c) else false := by
  rw [scrollDown, pixelAt_screenOfRows]
  have := r.isLt
  by_cases h : n ≤ r.val
  · simp only [h, if_true]
    rw [rowAt_of_lt _ _ (by omega)]
    rfl
  · simp [h]

/-- Scrolling right by `k` columns (R264). -/
theorem pixelAt_scrollRight (k : Nat) (scr : Screen) (r : Fin 64) (c : Fin 128) :
    pixelAt (scrollRight k scr) (r, c) =
      if k ≤ c.val then pixelAt scr (r, ⟨c.val - k, by omega⟩) else false := by
  rw [scrollRight, pixelAt_screenOfRows, BitVec.getLsbD_shiftLeft, rowAt_of_lt _ _ r.isLt]
  by_cases h : k ≤ c.val
  · simp [h, pixelAt]
  · simp [h, Nat.lt_of_not_le h]

/-- Scrolling left by `k` columns (R265). -/
theorem pixelAt_scrollLeft (k : Nat) (scr : Screen) (r : Fin 64) (c : Fin 128) :
    pixelAt (scrollLeft k scr) (r, c) =
      if h : c.val + k < 128 then pixelAt scr (r, ⟨c.val + k, h⟩) else false := by
  rw [scrollLeft, pixelAt_screenOfRows, BitVec.getLsbD_ushiftRight, rowAt_of_lt _ _ r.isLt]
  by_cases h : c.val + k < 128
  · rw [dif_pos h, Nat.add_comm]
    rfl
  · rw [dif_neg h]
    exact BitVec.getLsbD_of_ge _ _ (by simp only; omega)

@[simp] theorem xorPixels_nil (scr : Screen) : xorPixels scr [] = (scr, false) := rfl

/-- A run of toggles inverts a pixel as often as the run holds it. -/
theorem pixelAt_foldl_xorPixel (ps : List Pixel) (d : Screen × Bool) (q : Pixel) :
    pixelAt (ps.foldl xorPixel d).1 q = (pixelAt d.1 q ^^ decide (ps.count q % 2 = 1)) := by
  induction ps generalizing d with
  | nil => simp
  | cons p ps ih =>
    rw [List.foldl_cons, ih, List.count_cons]
    simp only [xorPixel, pixelAt_togglePixel, beq_iff_eq]
    by_cases h : p = q
    · simp only [h, if_true]
      rcases Nat.mod_two_eq_zero_or_one (ps.count q) with h0 | h1
      · simp [h0, show (ps.count q + 1) % 2 = 1 by omega]
      · simp [h1, show (ps.count q + 1) % 2 = 0 by omega]
    · simp [h]

/-- A run of toggles of different pixels inverts exactly those it holds (R261, R271). -/
theorem pixelAt_xorPixels {ps : List Pixel} (hn : ps.Nodup) (scr : Screen) (q : Pixel) :
    pixelAt (xorPixels scr ps).1 q = (pixelAt scr q ^^ decide (q ∈ ps)) := by
  rw [xorPixels, pixelAt_foldl_xorPixel, hn.count]
  by_cases h : q ∈ ps <;> simp [h]

/-- Over different pixels, `collided` is whether one of them was set before the run (R261, R271). -/
theorem xorPixels_collided {ps : List Pixel} (hn : ps.Nodup) (scr : Screen) :
    (xorPixels scr ps).2 = ps.any (fun p => pixelAt scr p) := by
  have key : ∀ (ps : List Pixel) (d : Screen × Bool), ps.Nodup →
      (ps.foldl xorPixel d).2 = (d.2 || ps.any (fun p => pixelAt d.1 p)) := by
    intro ps
    induction ps with
    | nil => intro d _; simp
    | cons p ps ih =>
      intro d h
      obtain ⟨hp, h⟩ := List.nodup_cons.mp h
      rw [List.foldl_cons, ih _ h, List.any_cons, xorPixel, Bool.or_assoc]
      congr 2
      refine Bool.eq_iff_iff.mpr ?_
      simp only [List.any_eq_true]
      refine exists_congr fun q => and_congr_right fun hq => ?_
      have hpq : p ≠ q := fun e => hp (by rw [e]; exact hq)
      rw [pixelAt_togglePixel, if_neg hpq]
  rw [xorPixels, key ps _ hn]
  simp

end Sys2Proof.Machine
end

