-- ==== Sys2Proof/Laws/Exec.lean ====
section
/-! SUPPORT. What an instruction can do, said once: to the run state, to memory, to the program counter, to the stack. -/

namespace Sys2Proof.Machine

/-- A fault was taken: `status` and the outcome changed, nothing else (R301). -/
abbrev TookFault (s t : State) : Prop :=
  ∃ f, t = { s with status := .faulted f, lastResult := some (.faulted f) }

/-- An instruction halts (00FD alone), takes a fault, or leaves the run state as it was. -/
theorem exec_status_cases {i : Instr} {s t : State} (h : exec i s = .next t) :
    (i = .exit ∧ t = { s with status := .halted, lastResult := some .halted }) ∨ TookFault s t ∨
      t.status = s.status := by
  have raised : ∀ {f : FaultKind}, raise f s = .next t → TookFault s t := fun {f} hr => by
    cases hr
    exact ⟨f, rfl⟩
  cases i
  case exit => cases h; exact .inl ⟨rfl, rfl⟩
  case scd n =>
    simp only [exec, execScd] at h
    split at h
    · exact .inr (.inl (raised h))
    · cases h; exact .inr (.inr rfl)
  case call nnn =>
    simp only [exec, execCall] at h
    rcases push_cases s.pc s with ⟨hd, hp⟩ | ⟨hd, hp⟩ <;> rw [hp] at h
    · cases h; exact .inr (.inr rfl)
    · exact .inr (.inl (raised h))
  case ret =>
    simp only [exec, execRet] at h
    rcases pop_cases s with ⟨k, d, h1, h2, hp⟩ | ⟨hd, hp⟩ <;> rw [hp] at h
    · cases h; exact .inr (.inr rfl)
    · exact .inr (.inl (raised h))
  case drw16 x y =>
    simp only [exec, execDrw16] at h
    split at h <;> (cases h; exact .inr (.inr rfl))
  case ldVxK x =>
    simp only [exec, execLdVxK] at h
    split at h <;> (cases h; exact .inr (.inr rfl))
  case ldHf x =>
    simp only [exec, execLdHf] at h
    split at h
    · exact .inr (.inl (raised h))
    · cases h; exact .inr (.inr rfl)
  case ldB x =>
    simp only [exec, execLdB] at h
    rcases storeOrRaise_cases (decimalCells s (s.getV x)) s s with ⟨c, hc, hlt, he⟩ | ⟨hw, he⟩ <;> rw [he] at h
    · exact .inr (.inl (raised h))
    · cases h; exact .inr (.inr rfl)
  case ldMemV x =>
    simp only [exec, execLdMemV] at h
    rcases storeOrRaise_cases (blockCells s x) { s with i := blockAdvancedI s x } s with
      ⟨c, hc, hlt, he⟩ | ⟨hw, he⟩ <;> rw [he] at h
    · exact .inr (.inl (raised h))
    · cases h; exact .inr (.inr rfl)
  case ldVMem x =>
    cases h
    refine .inr (.inr ?_)
    simp only [completed_status]
    rw [loadBlock_eq]
  case ldRV x =>
    simp only [exec, execLdRV] at h
    split at h
    · exact .inr (.inl (raised h))
    · cases h
      refine .inr (.inr ?_)
      rw [completed_status, saveFlagBlock_eq]
  case ldVR x =>
    simp only [exec, execLdVR] at h
    split at h
    · exact .inr (.inl (raised h))
    · cases h
      refine .inr (.inr ?_)
      rw [completed_status, restoreFlagBlock_eq]
  all_goals (cases h; exact .inr (.inr rfl))

/-- An instruction leaves memory as it was, or it is Fx33 or Fx55 and wrote cells at 0x200 or above (R70, R72). -/
theorem exec_mem_cases {i : Instr} {s t : State} (h : exec i s = .next t) :
    t.mem = s.mem ∨
      ((∃ x, i = .ldB x ∨ i = .ldMemV x) ∧
        ∃ cells : List Host.Cell, (∀ c ∈ cells, Config.progBase ≤ c.1) ∧ t.mem = Memory.writeCells s.mem cells) := by
  cases i
  case scd n =>
    simp only [exec, execScd] at h
    split at h <;> (cases h; exact .inl rfl)
  case call nnn =>
    simp only [exec, execCall] at h
    rcases push_cases s.pc s with ⟨hd, hp⟩ | ⟨hd, hp⟩ <;> rw [hp] at h <;> (cases h; exact .inl rfl)
  case ret =>
    simp only [exec, execRet] at h
    rcases pop_cases s with ⟨k, d, h1, h2, hp⟩ | ⟨hd, hp⟩ <;> rw [hp] at h <;> (cases h; exact .inl rfl)
  case drw16 x y =>
    simp only [exec, execDrw16] at h
    split at h <;> (cases h; exact .inl rfl)
  case ldVxK x =>
    simp only [exec, execLdVxK] at h
    split at h <;> (cases h; exact .inl rfl)
  case ldHf x =>
    simp only [exec, execLdHf] at h
    split at h <;> (cases h; exact .inl rfl)
  case ldB x =>
    simp only [exec, execLdB] at h
    rcases storeOrRaise_cases (decimalCells s (s.getV x)) s s with ⟨c, hc, hlt, he⟩ | ⟨hw, he⟩ <;> rw [he] at h <;> cases h
    · exact .inl rfl
    · exact .inr ⟨⟨x, .inl rfl⟩, _, hw, rfl⟩
  case ldMemV x =>
    simp only [exec, execLdMemV] at h
    rcases storeOrRaise_cases (blockCells s x) { s with i := blockAdvancedI s x } s with
      ⟨c, hc, hlt, he⟩ | ⟨hw, he⟩ <;> rw [he] at h <;> cases h
    · exact .inl rfl
    · exact .inr ⟨⟨x, .inr rfl⟩, _, hw, rfl⟩
  case ldVMem x =>
    cases h
    refine .inl ?_
    simp only [completed_mem]
    rw [loadBlock_eq]
  case ldRV x =>
    simp only [exec, execLdRV] at h
    split at h <;> cases h
    · exact .inl rfl
    · rw [completed_mem, saveFlagBlock_eq]; exact .inl rfl
  case ldVR x =>
    simp only [exec, execLdVR] at h
    split at h <;> cases h
    · exact .inl rfl
    · rw [completed_mem, restoreFlagBlock_eq]; exact .inl rfl
  all_goals (cases h; exact .inl rfl)

/-- No instruction writes the two parameters a load leaves in the state, `superMode` and `KEY_CODES` (R8, R43). -/
theorem exec_parameters {i : Instr} {s t : State} (h : exec i s = .next t) :
    t.superMode = s.superMode ∧ t.keyCodes = s.keyCodes := by
  cases i
  case scd n =>
    simp only [exec, execScd] at h
    split at h <;> (cases h; exact ⟨rfl, rfl⟩)
  case call nnn =>
    simp only [exec, execCall] at h
    rcases push_cases s.pc s with ⟨hd, hp⟩ | ⟨hd, hp⟩ <;> rw [hp] at h <;> (cases h; exact ⟨rfl, rfl⟩)
  case ret =>
    simp only [exec, execRet] at h
    rcases pop_cases s with ⟨k, d, h1, h2, hp⟩ | ⟨hd, hp⟩ <;> rw [hp] at h <;> (cases h; exact ⟨rfl, rfl⟩)
  case drw16 x y =>
    simp only [exec, execDrw16] at h
    split at h <;> (cases h; exact ⟨rfl, rfl⟩)
  case ldVxK x =>
    simp only [exec, execLdVxK] at h
    split at h <;> (cases h; exact ⟨rfl, rfl⟩)
  case ldHf x =>
    simp only [exec, execLdHf] at h
    split at h <;> (cases h; exact ⟨rfl, rfl⟩)
  case ldB x =>
    simp only [exec, execLdB] at h
    rcases storeOrRaise_cases (decimalCells s (s.getV x)) s s with ⟨c, hc, hlt, he⟩ | ⟨hw, he⟩ <;> rw [he] at h <;>
      (cases h; exact ⟨rfl, rfl⟩)
  case ldMemV x =>
    simp only [exec, execLdMemV] at h
    rcases storeOrRaise_cases (blockCells s x) { s with i := blockAdvancedI s x } s with
      ⟨c, hc, hlt, he⟩ | ⟨hw, he⟩ <;> rw [he] at h <;> (cases h; exact ⟨rfl, rfl⟩)
  case ldVMem x => cases h; simp only [completed_superMode, completed_keyCodes]; rw [loadBlock_eq]; exact ⟨rfl, rfl⟩
  case ldRV x =>
    simp only [exec, execLdRV] at h
    split at h <;> cases h
    · exact ⟨rfl, rfl⟩
    · rw [completed_superMode, completed_keyCodes, saveFlagBlock_eq]; exact ⟨rfl, rfl⟩
  case ldVR x =>
    simp only [exec, execLdVR] at h
    split at h <;> cases h
    · exact ⟨rfl, rfl⟩
    · rw [completed_superMode, completed_keyCodes, restoreFlagBlock_eq]; exact ⟨rfl, rfl⟩
  all_goals (cases h; exact ⟨rfl, rfl⟩)

/-- Where an instruction leaves `PC` and the stack: it takes a fault, halts, waits, or goes on 2 or 4 with the stack as it
was; or jumps below 0x10FF with the stack as it was; or pushes its own address; or pops and goes past it (R35, R111). -/
theorem exec_control_cases {i : Instr} {s t : State} (h : exec i s = .next t) :
    (t.stack = s.stack ∧ t.depth = s.depth ∧
      (t.pc = s.pc ∨ t.pc = s.pc + 2 ∨ t.pc = s.pc + 4 ∨ t.pc.toNat ≤ 0x10FE)) ∨
    ((∃ nnn, i = .call nnn) ∧ t.pc.toNat ≤ 0xFFF ∧ ∃ hd : s.depth.val < Config.stackDepth,
      t.stack = s.stack.set s.depth.val s.pc hd ∧ t.depth.val = s.depth.val + 1) ∨
    (i = .ret ∧ t.stack = s.stack ∧ ∃ k : Fin 16, s.depth.val = k.val + 1 ∧ t.depth.val = k.val ∧
      t.pc = s.stack[k.val] + 2) := by
  have small : ∀ nnn : Addr12, (zext16 nnn).toNat = nnn.toNat := fun nnn => by
    have := nnn.isLt
    simp only [zext16, BitVec.toNat_setWidth]
    omega
  cases i
  case scd n =>
    simp only [exec, execScd] at h
    split at h <;> cases h
    · exact .inl ⟨rfl, rfl, .inl rfl⟩
    · exact .inl ⟨rfl, rfl, .inr (.inl rfl)⟩
  case exit => cases h; exact .inl ⟨rfl, rfl, .inl rfl⟩
  case jp nnn =>
    cases h
    refine .inl ⟨rfl, rfl, .inr (.inr (.inr ?_))⟩
    have := nnn.isLt
    simp only [small]
    omega
  case jpV0 nnn =>
    cases h
    refine .inl ⟨rfl, rfl, .inr (.inr (.inr ?_))⟩
    have := nnn.isLt
    have := (s.getV 0).isLt
    simp only [BitVec.toNat_add, zext16, BitVec.toNat_setWidth]
    omega
  case call nnn =>
    simp only [exec, execCall] at h
    rcases push_cases s.pc s with ⟨hd, hp⟩ | ⟨hd, hp⟩ <;> rw [hp] at h <;> cases h
    · have := nnn.isLt
      exact .inr (.inl ⟨⟨nnn, rfl⟩, by simp only [small]; omega, hd, rfl, rfl⟩)
    · exact .inl ⟨rfl, rfl, .inl rfl⟩
  case ret =>
    simp only [exec, execRet] at h
    rcases pop_cases s with ⟨k, d, h1, h2, hp⟩ | ⟨hd, hp⟩ <;> rw [hp] at h <;> cases h
    · exact .inr (.inr ⟨rfl, rfl, k, h1, h2, rfl⟩)
    · exact .inl ⟨rfl, rfl, .inl rfl⟩
  case drw16 x y =>
    simp only [exec, execDrw16] at h
    split at h <;> (cases h; exact .inl ⟨rfl, rfl, .inr (.inl rfl)⟩)
  case ldVxK x =>
    simp only [exec, execLdVxK] at h
    split at h <;> cases h
    · exact .inl ⟨rfl, rfl, .inl rfl⟩
    · exact .inl ⟨rfl, rfl, .inr (.inl rfl)⟩
  case ldHf x =>
    simp only [exec, execLdHf] at h
    split at h <;> cases h
    · exact .inl ⟨rfl, rfl, .inl rfl⟩
    · exact .inl ⟨rfl, rfl, .inr (.inl rfl)⟩
  case ldB x =>
    simp only [exec, execLdB] at h
    rcases storeOrRaise_cases (decimalCells s (s.getV x)) s s with ⟨c, hc, hlt, he⟩ | ⟨hw, he⟩ <;> rw [he] at h <;> cases h
    · exact .inl ⟨rfl, rfl, .inl rfl⟩
    · exact .inl ⟨rfl, rfl, .inr (.inl rfl)⟩
  case ldMemV x =>
    simp only [exec, execLdMemV] at h
    rcases storeOrRaise_cases (blockCells s x) { s with i := blockAdvancedI s x } s with
      ⟨c, hc, hlt, he⟩ | ⟨hw, he⟩ <;> rw [he] at h <;> cases h
    · exact .inl ⟨rfl, rfl, .inl rfl⟩
    · exact .inl ⟨rfl, rfl, .inr (.inl rfl)⟩
  case ldVMem x => cases h; simp only [completed_stack, completed_depth, completed_pc]; rw [loadBlock_eq]; exact .inl ⟨rfl, rfl, .inr (.inl rfl)⟩
  case ldRV x =>
    simp only [exec, execLdRV] at h
    split at h <;> cases h
    · exact .inl ⟨rfl, rfl, .inl rfl⟩
    · rw [completed_stack, completed_depth, completed_pc, saveFlagBlock_eq]; exact .inl ⟨rfl, rfl, .inr (.inl rfl)⟩
  case ldVR x =>
    simp only [exec, execLdVR] at h
    split at h <;> cases h
    · exact .inl ⟨rfl, rfl, .inl rfl⟩
    · rw [completed_stack, completed_depth, completed_pc, restoreFlagBlock_eq]; exact .inl ⟨rfl, rfl, .inr (.inl rfl)⟩
  case seImm => 
    simp only [exec, execSeImm, skipIf_eq] at h; cases h
    refine .inl ⟨rfl, rfl, ?_⟩
    simp only; split
    · exact .inr (.inr (.inl rfl))
    · exact .inr (.inl rfl)
  case sneImm => 
    simp only [exec, execSneImm, skipIf_eq] at h; cases h
    refine .inl ⟨rfl, rfl, ?_⟩
    simp only; split
    · exact .inr (.inr (.inl rfl))
    · exact .inr (.inl rfl)
  case seReg => 
    simp only [exec, execSeReg, skipIf_eq] at h; cases h
    refine .inl ⟨rfl, rfl, ?_⟩
    simp only; split
    · exact .inr (.inr (.inl rfl))
    · exact .inr (.inl rfl)
  case sneReg => 
    simp only [exec, execSneReg, skipIf_eq] at h; cases h
    refine .inl ⟨rfl, rfl, ?_⟩
    simp only; split
    · exact .inr (.inr (.inl rfl))
    · exact .inr (.inl rfl)
  case skp => 
    simp only [exec, execSkp, skipIf_eq] at h; cases h
    refine .inl ⟨rfl, rfl, ?_⟩
    simp only; split
    · exact .inr (.inr (.inl rfl))
    · exact .inr (.inl rfl)
  case sknp => 
    simp only [exec, execSknp, skipIf_eq] at h; cases h
    refine .inl ⟨rfl, rfl, ?_⟩
    simp only; split
    · exact .inr (.inr (.inl rfl))
    · exact .inr (.inl rfl)
  all_goals (cases h; exact .inl ⟨rfl, rfl, .inr (.inl rfl)⟩)

end Sys2Proof.Machine
end

