-- ==== Sys2Proof/Laws/PerInstr.lean ====
section
/-! SUPPORT. Per instruction: its encoding holds the fixed fields that spec/opcode_table.json gives its row. -/

namespace Sys2Proof.Laws.TableRow

/-- The fixed fields of an instruction's row of spec/opcode_table.json, each (highest bit, lowest bit, value). -/
def fixedFields (i : Instr) : List (Nat × Nat × Nat) :=
  match i with
  | .scd _ => [(15, 4, 12)]
  | .cls => [(15, 0, 224)]
  | .ret => [(15, 0, 238)]
  | .scr => [(15, 0, 251)]
  | .scl => [(15, 0, 252)]
  | .exit => [(15, 0, 253)]
  | .low => [(15, 0, 254)]
  | .high => [(15, 0, 255)]
  | .jp _ => [(15, 12, 1)]
  | .call _ => [(15, 12, 2)]
  | .seImm _ _ => [(15, 12, 3)]
  | .sneImm _ _ => [(15, 12, 4)]
  | .seReg _ _ => [(3, 0, 0), (15, 12, 5)]
  | .ldImm _ _ => [(15, 12, 6)]
  | .addImm _ _ => [(15, 12, 7)]
  | .ldReg _ _ => [(3, 0, 0), (15, 12, 8)]
  | .orReg _ _ => [(3, 0, 1), (15, 12, 8)]
  | .andReg _ _ => [(3, 0, 2), (15, 12, 8)]
  | .xorReg _ _ => [(3, 0, 3), (15, 12, 8)]
  | .addReg _ _ => [(3, 0, 4), (15, 12, 8)]
  | .sub _ _ => [(3, 0, 5), (15, 12, 8)]
  | .shr _ _ => [(3, 0, 6), (15, 12, 8)]
  | .subn _ _ => [(3, 0, 7), (15, 12, 8)]
  | .shl _ _ => [(3, 0, 14), (15, 12, 8)]
  | .sneReg _ _ => [(3, 0, 0), (15, 12, 9)]
  | .ldI _ => [(15, 12, 10)]
  | .jpV0 _ => [(15, 12, 11)]
  | .rnd _ _ => [(15, 12, 12)]
  | .drw _ _ _ => [(15, 12, 13)]
  | .drw16 _ _ => [(3, 0, 0), (15, 12, 13)]
  | .skp _ => [(7, 0, 158), (15, 12, 14)]
  | .sknp _ => [(7, 0, 161), (15, 12, 14)]
  | .ldVxDt _ => [(7, 0, 7), (15, 12, 15)]
  | .ldVxK _ => [(7, 0, 10), (15, 12, 15)]
  | .ldDtVx _ => [(7, 0, 21), (15, 12, 15)]
  | .ldStVx _ => [(7, 0, 24), (15, 12, 15)]
  | .addI _ => [(7, 0, 30), (15, 12, 15)]
  | .ldF _ => [(7, 0, 41), (15, 12, 15)]
  | .ldHf _ => [(7, 0, 48), (15, 12, 15)]
  | .ldB _ => [(7, 0, 51), (15, 12, 15)]
  | .ldMemV _ => [(7, 0, 85), (15, 12, 15)]
  | .ldVMem _ => [(7, 0, 101), (15, 12, 15)]
  | .ldRV _ => [(7, 0, 117), (15, 12, 15)]
  | .ldVR _ => [(7, 0, 133), (15, 12, 15)]

/-- The word of the instruction holds every fixed field of its row (R101, R104). -/
def Statement (i : Instr) : Prop :=
  ∀ f ∈ fixedFields i, (encode i).toNat / 2 ^ f.2.1 % 2 ^ (f.1 + 1 - f.2.1) = f.2.2

theorem of_formatXY {i : Instr} {o f : Nibble} {x y : Reg} (he : encode i = formatXY o x y f)
    (hf : ∀ g ∈ fixedFields i, g = (3, 0, f.toNat) ∨ g = (15, 12, o.toNat)) : Statement i := by
  intro g hg
  have := x.isLt; have := y.isLt; have := f.isLt; have := o.isLt
  rw [he, toNat_formatXY]
  rcases hf g hg with rfl | rfl <;> simp only <;> omega

theorem of_formatXB {i : Instr} {o : Nibble} {b : Byte} {x : Reg} (he : encode i = formatXB o x b)
    (hf : ∀ g ∈ fixedFields i, g = (7, 0, b.toNat) ∨ g = (15, 12, o.toNat)) : Statement i := by
  intro g hg
  have := x.isLt; have := b.isLt; have := o.isLt
  rw [he, toNat_formatXB]
  rcases hf g hg with rfl | rfl <;> simp only <;> omega

theorem of_formatA {i : Instr} {o : Nibble} {nnn : Addr12} (he : encode i = formatA o nnn)
    (hf : ∀ g ∈ fixedFields i, g = (15, 12, o.toNat)) : Statement i := by
  intro g hg
  have := nnn.isLt; have := o.isLt
  rw [he, toNat_formatA, hf g hg]
  simp only
  omega

theorem scd (n : Nibble) : Statement (.scd n) := by
  unfold Statement
  revert n
  decide

theorem cls : Statement .cls := by
  unfold Statement
  decide

theorem ret : Statement .ret := by
  unfold Statement
  decide

theorem scr : Statement .scr := by
  unfold Statement
  decide

theorem scl : Statement .scl := by
  unfold Statement
  decide

theorem exit : Statement .exit := by
  unfold Statement
  decide

theorem low : Statement .low := by
  unfold Statement
  decide

theorem high : Statement .high := by
  unfold Statement
  decide

theorem jp (nnn : Addr12) : Statement (.jp nnn) := of_formatA rfl (by simp [fixedFields])

theorem call (nnn : Addr12) : Statement (.call nnn) := of_formatA rfl (by simp [fixedFields])

theorem seImm (x : Reg) (nn : Byte) : Statement (.seImm x nn) := of_formatXB rfl (by simp [fixedFields])

theorem sneImm (x : Reg) (nn : Byte) : Statement (.sneImm x nn) := of_formatXB rfl (by simp [fixedFields])

theorem seReg (x y : Reg) : Statement (.seReg x y) := of_formatXY rfl (by simp [fixedFields])

theorem ldImm (x : Reg) (nn : Byte) : Statement (.ldImm x nn) := of_formatXB rfl (by simp [fixedFields])

theorem addImm (x : Reg) (nn : Byte) : Statement (.addImm x nn) := of_formatXB rfl (by simp [fixedFields])

theorem ldReg (x y : Reg) : Statement (.ldReg x y) := of_formatXY rfl (by simp [fixedFields])

theorem orReg (x y : Reg) : Statement (.orReg x y) := of_formatXY rfl (by simp [fixedFields])

theorem andReg (x y : Reg) : Statement (.andReg x y) := of_formatXY rfl (by simp [fixedFields])

theorem xorReg (x y : Reg) : Statement (.xorReg x y) := of_formatXY rfl (by simp [fixedFields])

theorem addReg (x y : Reg) : Statement (.addReg x y) := of_formatXY rfl (by simp [fixedFields])

theorem sub (x y : Reg) : Statement (.sub x y) := of_formatXY rfl (by simp [fixedFields])

theorem shr (x y : Reg) : Statement (.shr x y) := of_formatXY rfl (by simp [fixedFields])

theorem subn (x y : Reg) : Statement (.subn x y) := of_formatXY rfl (by simp [fixedFields])

theorem shl (x y : Reg) : Statement (.shl x y) := of_formatXY rfl (by simp [fixedFields])

theorem sneReg (x y : Reg) : Statement (.sneReg x y) := of_formatXY rfl (by simp [fixedFields])

theorem ldI (nnn : Addr12) : Statement (.ldI nnn) := of_formatA rfl (by simp [fixedFields])

theorem jpV0 (nnn : Addr12) : Statement (.jpV0 nnn) := of_formatA rfl (by simp [fixedFields])

theorem rnd (x : Reg) (nn : Byte) : Statement (.rnd x nn) := of_formatXB rfl (by simp [fixedFields])

theorem drw (x y : Reg) (n : Nibble) : Statement (.drw x y n) := of_formatXY rfl (by simp [fixedFields])

theorem drw16 (x y : Reg) : Statement (.drw16 x y) := of_formatXY rfl (by simp [fixedFields])

theorem skp (x : Reg) : Statement (.skp x) := of_formatXB rfl (by simp [fixedFields])

theorem sknp (x : Reg) : Statement (.sknp x) := of_formatXB rfl (by simp [fixedFields])

theorem ldVxDt (x : Reg) : Statement (.ldVxDt x) := of_formatXB rfl (by simp [fixedFields])

theorem ldVxK (x : Reg) : Statement (.ldVxK x) := of_formatXB rfl (by simp [fixedFields])

theorem ldDtVx (x : Reg) : Statement (.ldDtVx x) := of_formatXB rfl (by simp [fixedFields])

theorem ldStVx (x : Reg) : Statement (.ldStVx x) := of_formatXB rfl (by simp [fixedFields])

theorem addI (x : Reg) : Statement (.addI x) := of_formatXB rfl (by simp [fixedFields])

theorem ldF (x : Reg) : Statement (.ldF x) := of_formatXB rfl (by simp [fixedFields])

theorem ldHf (x : Reg) : Statement (.ldHf x) := of_formatXB rfl (by simp [fixedFields])

theorem ldB (x : Reg) : Statement (.ldB x) := of_formatXB rfl (by simp [fixedFields])

theorem ldMemV (x : Reg) : Statement (.ldMemV x) := of_formatXB rfl (by simp [fixedFields])

theorem ldVMem (x : Reg) : Statement (.ldVMem x) := of_formatXB rfl (by simp [fixedFields])

theorem ldRV (x : Reg) : Statement (.ldRV x) := of_formatXB rfl (by simp [fixedFields])

theorem ldVR (x : Reg) : Statement (.ldVR x) := of_formatXB rfl (by simp [fixedFields])

end Sys2Proof.Laws.TableRow
end

