-- ==== Sys2Proof/Tests/Slice0.lean ====
section
/-! SUPPORT. Small tests. The expected results are those of the spec: the encodings of 30_encoding R101 and R104, and the
vectors W1 to W9, V1 to V119 of 95_test_vectors, named in each comment; then one witness for each hypothesis of a
statement. -/

namespace Sys2Proof.Tests

set_option Elab.async false

open Sys2Proof.Machine

/-- The outcome is a next state that passes `p`. -/
def gives (p : State → Bool) (r : Result) : Bool :=
  match r with
  | .next t => p t
  | .fault _ => false
  | .refused _ => false

/-- One `advance` of the state with the word placed at `PC`. -/
def run (w : Nat) (s : State) : Result := advance (s.withFetchWord 16 w)

/-- The state with a byte of memory placed. -/
def poke (a : Nat) (b : Byte) (s : State) : State := { s with mem := Memory.write s.mem a b }

/-- The state with these pixels inverted. -/
def lit (ps : List Pixel) (s : State) : State := { s with scr := ps.foldl togglePixel s.scr }

/-- The buffer that has exactly these pixels set. -/
def only (ps : List Pixel) : Screen := ps.foldl togglePixel blankScreen

/-- The outcome is the fault `f`, the rest of the state as it was. -/
def faults (w : Nat) (s : State) (f : FaultKind) : Prop :=
  run w s = .next { s.withFetchWord 16 w with status := .faulted f, lastResult := some (.faulted f) }

/-! ## Well-formed terms and decoding -/

/-- R268: `DRW Vx, Vy, 0` is not a Dxyn. -/
theorem test_drw_of_no_rows_is_ill_formed : (Instr.drw 3 4 0).wellFormed = false := by decide

theorem test_drw_of_one_row_is_well_formed : (Instr.drw 3 4 1).wellFormed = true := by decide

/-- R101, R104: the words of the control family, bit by bit. -/
theorem test_decode_control :
    decode 0b00010010 0b00110100 = .ok (.jp 0x234) ∧
    decode 0b00100011 0b01000101 = .ok (.call 0x345) ∧
    decode 0b00000000 0b11101110 = .ok .ret ∧
    decode 0b10110100 0b01010110 = .ok (.jpV0 0x456) ∧
    decode 0b00000000 0b11111101 = .ok .exit := by decide +kernel

/-- R101, R104: the words of the skip family, bit by bit. -/
theorem test_decode_skip :
    decode 0b00110010 0b01000001 = .ok (.seImm 2 0x41) ∧
    decode 0b01000010 0b01000001 = .ok (.sneImm 2 0x41) ∧
    decode 0b01010001 0b00100000 = .ok (.seReg 1 2) ∧
    decode 0b10010001 0b00100000 = .ok (.sneReg 1 2) ∧
    decode 0b11100011 0b10011110 = .ok (.skp 3) ∧
    decode 0b11100011 0b10100001 = .ok (.sknp 3) := by decide +kernel

/-- R101, R104: the words of the arithmetic family, bit by bit. -/
theorem test_decode_arithmetic :
    decode 0b01101010 0b01000010 = .ok (.ldImm 10 0x42) ∧
    decode 0b01111010 0b11111111 = .ok (.addImm 10 0xFF) ∧
    decode 0b10000001 0b00100000 = .ok (.ldReg 1 2) ∧
    decode 0b10000001 0b00100001 = .ok (.orReg 1 2) ∧
    decode 0b10000001 0b00100010 = .ok (.andReg 1 2) ∧
    decode 0b10000001 0b00100011 = .ok (.xorReg 1 2) ∧
    decode 0b10001111 0b00010100 = .ok (.addReg 15 1) ∧
    decode 0b10000001 0b11110101 = .ok (.sub 1 15) ∧
    decode 0b10001010 0b10110110 = .ok (.shr 10 11) ∧
    decode 0b10000001 0b00100111 = .ok (.subn 1 2) ∧
    decode 0b10001010 0b10111110 = .ok (.shl 10 11) := by decide +kernel

/-- R101, R104: the words of the memory family, bit by bit. -/
theorem test_decode_memory :
    decode 0b10100010 0b11110000 = .ok (.ldI 0x2F0) ∧
    decode 0b11110011 0b00011110 = .ok (.addI 3) ∧
    decode 0b11110100 0b00101001 = .ok (.ldF 4) ∧
    decode 0b11110100 0b00110000 = .ok (.ldHf 4) ∧
    decode 0b11110010 0b00110011 = .ok (.ldB 2) ∧
    decode 0b11111111 0b01010101 = .ok (.ldMemV 15) ∧
    decode 0b11110001 0b01100101 = .ok (.ldVMem 1) ∧
    decode 0b11110111 0b01110101 = .ok (.ldRV 7) ∧
    decode 0b11111000 0b10000101 = .ok (.ldVR 8) := by decide +kernel

/-- R101, R104: the words of the timer family, bit by bit. -/
theorem test_decode_timer :
    decode 0b11110101 0b00000111 = .ok (.ldVxDt 5) ∧
    decode 0b11110101 0b00010101 = .ok (.ldDtVx 5) ∧
    decode 0b11110101 0b00011000 = .ok (.ldStVx 5) := by decide +kernel

/-- R101, R104: the words of the random and key family, bit by bit. -/
theorem test_decode_random_and_key :
    decode 0b11000001 0b00001111 = .ok (.rnd 1 0x0F) ∧
    decode 0b11110011 0b00001010 = .ok (.ldVxK 3) := by decide +kernel

/-- R101, R104: the words of the display family, bit by bit. -/
theorem test_decode_display :
    decode 0b00000000 0b11100000 = .ok .cls ∧
    decode 0b00000000 0b11001101 = .ok (.scd 13) ∧
    decode 0b00000000 0b11111011 = .ok .scr ∧
    decode 0b00000000 0b11111100 = .ok .scl ∧
    decode 0b00000000 0b11111110 = .ok .low ∧
    decode 0b00000000 0b11111111 = .ok .high ∧
    decode 0b11010000 0b00010101 = .ok (.drw 0 1 5) ∧
    decode 0b11010010 0b00110000 = .ok (.drw16 2 3) := by decide +kernel

/-- R105: words next to valid ones. -/
theorem test_decode_refuses :
    decode 0x00 0xE1 = .error (.invalidOpcode 0x00 0xE1) ∧ decode 0x51 0x21 = .error (.invalidOpcode 0x51 0x21) ∧
    decode 0x81 0x28 = .error (.invalidOpcode 0x81 0x28) ∧ decode 0xE3 0xA2 = .error (.invalidOpcode 0xE3 0xA2) ∧
    decode 0xF0 0xFF = .error (.invalidOpcode 0xF0 0xFF) := by decide +kernel

/-- The table numbers the bits of the one word from its least significant bit. -/
theorem test_decodeTableWord : decodeTableWord 16 0x1234 = some (.jp 0x234) ∧ decodeTableWord 16 0x00EF = none := by
  decide +kernel

/-! ## Control flow -/

/-- V1. -/
theorem test_jp :
    gives (fun t => t.pc == 0x234)
      (run 0x1234 (State.reset)) = true := by decide +kernel

/-- V4. -/
theorem test_call :
    gives (fun t => t.stack[0] == 0x200 && t.sc == 0 && t.pc == 0x300)
      (run 0x2300 (State.reset)) = true := by decide +kernel

/-- V5. -/
theorem test_call_overflow : faults 0x2300 { State.reset with depth := 16 } (.stackOverflow 0x200) := by
  simp only [faults]
  rfl

/-- V7. -/
theorem test_ret :
    gives (fun t => t.sc == -1 && t.pc == 0x202)
      (run 0x00EE ({ State.reset with pc := 0x300, depth := 1, stack := State.reset.stack.set 0 0x200 })) = true := by decide +kernel

/-- V8. -/
theorem test_ret_underflow : faults 0x00EE State.reset (.stackUnderflow 0x200) := by
  simp only [faults]
  rfl

/-- V9. -/
theorem test_jpV0 :
    gives (fun t => t.pc == 0x310)
      (run 0xB300 (State.reset.setV 0 0x10)) = true := by decide +kernel

/-- V12. -/
theorem test_jpV0_no_wrap :
    gives (fun t => t.pc == 0x1000)
      (run 0xBFFE (State.reset.setV 0 0x02)) = true := by decide +kernel

/-- V13. -/
theorem test_exit :
    gives (fun t => t.status == .halted && t.pc == 0x204 && t.lastResult == some .halted)
      (run 0x00FD ({ State.reset with pc := 0x204 })) = true := by decide +kernel

/-! ## Skips -/

/-- V14. -/
theorem test_seImm_taken :
    gives (fun t => t.pc == 0x204)
      (run 0x3241 (State.reset.setV 2 0x41)) = true := by decide +kernel

/-- V15. -/
theorem test_seImm :
    gives (fun t => t.pc == 0x202)
      (run 0x3241 (State.reset.setV 2 0x40)) = true := by decide +kernel

/-- V17. -/
theorem test_sneImm :
    gives (fun t => t.pc == 0x202)
      (run 0x4241 (State.reset.setV 2 0x41)) = true := by decide +kernel

/-- V18. -/
theorem test_sneImm_taken :
    gives (fun t => t.pc == 0x204)
      (run 0x4241 (State.reset.setV 2 0x40)) = true := by decide +kernel

/-- V19. -/
theorem test_seReg_taken :
    gives (fun t => t.pc == 0x204)
      (run 0x5120 ((State.reset.setV 1 7).setV 2 7)) = true := by decide +kernel

/-- V20. -/
theorem test_seReg :
    gives (fun t => t.pc == 0x202)
      (run 0x5120 ((State.reset.setV 1 7).setV 2 8)) = true := by decide +kernel

/-- V21. -/
theorem test_sneReg_taken :
    gives (fun t => t.pc == 0x204)
      (run 0x9120 ((State.reset.setV 1 7).setV 2 8)) = true := by decide +kernel

/-- V22. -/
theorem test_sneReg :
    gives (fun t => t.pc == 0x202)
      (run 0x9120 ((State.reset.setV 1 7).setV 2 7)) = true := by decide +kernel

/-- V23: the draw is `true`. -/
theorem test_skp_taken (h : Config.keyPressed 0 0 = true) :
    gives (fun t => t.pc == 0x204) (exec (.skp 3) State.reset) = true := by
  have h' : State.reset.keyPressed (State.reset.getV 3) = true := h
  simp [exec, execSkp, skipIf, gives, h', finish, completed]
  decide

/-- V24: the draw is `false`. -/
theorem test_skp (h : Config.keyPressed 0 0 = false) :
    gives (fun t => t.pc == 0x202) (exec (.skp 3) State.reset) = true := by
  have h' : State.reset.keyPressed (State.reset.getV 3) = false := h
  simp [exec, execSkp, skipIf, gives, h', finish, completed]
  decide

/-- V25: the draw is `true`. -/
theorem test_sknp (h : Config.keyPressed 0 0 = true) :
    gives (fun t => t.pc == 0x202) (exec (.sknp 3) State.reset) = true := by
  have h' : State.reset.keyPressed (State.reset.getV 3) = true := h
  simp [exec, execSknp, skipIf, gives, h', finish, completed]
  decide

/-- V26: the draw is `false`. -/
theorem test_sknp_taken (h : Config.keyPressed 0 0 = false) :
    gives (fun t => t.pc == 0x204) (exec (.sknp 3) State.reset) = true := by
  have h' : State.reset.keyPressed (State.reset.getV 3) = false := h
  simp [exec, execSknp, skipIf, gives, h', finish, completed]
  decide

/-! ## Arithmetic and logic -/

/-- V29. -/
theorem test_ldImm :
    gives (fun t => t.getV 10 == 0x42 && t.getV vF == 9)
      (run 0x6A42 (State.reset.setV 15 9)) = true := by decide +kernel

/-- V30. -/
theorem test_addImm :
    gives (fun t => t.getV 10 == 0x00 && t.getV vF == 5)
      (run 0x7AFF ((State.reset.setV 10 0x01).setV 15 5)) = true := by decide +kernel

/-- V32. -/
theorem test_ldReg :
    gives (fun t => t.getV 1 == 0xC5 && t.getV vF == 7)
      (run 0x8120 (((State.reset.setV 1 3).setV 2 0xC5).setV 15 7)) = true := by decide +kernel

/-- V33. -/
theorem test_orReg :
    gives (fun t => t.getV 1 == 0xFF)
      (run 0x8121 ((State.reset.setV 1 0x0F).setV 2 0xF0)) = true := by decide +kernel

/-- V34. -/
theorem test_andReg :
    gives (fun t => t.getV 1 == 0x0C)
      (run 0x8122 ((State.reset.setV 1 0x3C).setV 2 0x0F)) = true := by decide +kernel

/-- V35. -/
theorem test_xorReg :
    gives (fun t => t.getV 1 == 0xF0)
      (run 0x8123 ((State.reset.setV 1 0xFF).setV 2 0x0F)) = true := by decide +kernel

/-- W3. -/
theorem test_addReg :
    gives (fun t => t.getV 1 == 0x00 && t.getV vF == 1)
      (run 0x8124 ((State.reset.setV 1 0xFF).setV 2 0x01)) = true := by decide +kernel

/-- V39. -/
theorem test_addReg_to_flag :
    gives (fun t => t.getV vF == 1)
      (run 0x8F14 ((State.reset.setV 15 0xFF).setV 1 0x01)) = true := by decide +kernel

/-- W4. -/
theorem test_sub_borrow :
    gives (fun t => t.getV 1 == 0xFE && t.getV vF == 0)
      (run 0x8125 ((State.reset.setV 1 0x03).setV 2 0x05)) = true := by decide +kernel

/-- V41. -/
theorem test_sub_equal :
    gives (fun t => t.getV 1 == 0x00 && t.getV vF == 1)
      (run 0x8125 ((State.reset.setV 1 5).setV 2 5)) = true := by decide +kernel

/-- V44. -/
theorem test_shr :
    gives (fun t => t.getV 1 == 0x01 && t.getV vF == 1)
      (run 0x8126 ((State.reset.setV 1 0x80).setV 2 0x03)) = true := by decide +kernel

/-- V45. -/
theorem test_shr_superMode :
    gives (fun t => t.getV 1 == 0x40 && t.getV vF == 0)
      (run 0x8126 ({ (State.reset.setV 1 0x80).setV 2 0x03 with superMode := true })) = true := by decide +kernel

/-- V47. -/
theorem test_subn :
    gives (fun t => t.getV 1 == 0x02 && t.getV vF == 1)
      (run 0x8127 ((State.reset.setV 1 3).setV 2 5)) = true := by decide +kernel

/-- V48. -/
theorem test_subn_borrow :
    gives (fun t => t.getV 1 == 0xFE && t.getV vF == 0)
      (run 0x8127 ((State.reset.setV 1 5).setV 2 3)) = true := by decide +kernel

/-- V50. -/
theorem test_shl :
    gives (fun t => t.getV 1 == 0x02 && t.getV vF == 1)
      (run 0x812E ((State.reset.setV 1 0x01).setV 2 0x81)) = true := by decide +kernel

/-- V51. -/
theorem test_shl_superMode :
    gives (fun t => t.getV 1 == 0x02 && t.getV vF == 0)
      (run 0x812E ({ (State.reset.setV 1 0x01).setV 2 0x81 with superMode := true })) = true := by decide +kernel

/-! ## Memory transfer -/

/-- V54. -/
theorem test_ldI :
    gives (fun t => t.i == 0x123)
      (run 0xA123 (State.reset)) = true := by decide +kernel

/-- V56. -/
theorem test_addI :
    gives (fun t => t.i == 0x1000 && t.getV vF == 4)
      (run 0xF31E ({ (State.reset.setV 3 0x01).setV 15 4 with i := 0xFFF })) = true := by decide +kernel

/-- V59. -/
theorem test_ldF :
    gives (fun t => t.i == 0x032)
      (run 0xF429 (State.reset.setV 4 0x1A)) = true := by decide +kernel

/-- V63. -/
theorem test_ldHf :
    gives (fun t => t.i == 0x0DA)
      (run 0xF430 (State.reset.setV 4 9)) = true := by decide +kernel

/-- V64. -/
theorem test_ldHf_above_nine : faults 0xF430 (State.reset.setV 4 0x13) (.invalidGlyphIndex 0x200 0x13) := by
  simp only [faults]
  rfl

/-- V65. -/
theorem test_ldB :
    gives (fun t => Memory.read t.mem 0x300 == 1 && Memory.read t.mem 0x301 == 5 && Memory.read t.mem 0x302 == 6 && t.i == 0x300)
      (run 0xF233 ({ State.reset.setV 2 156 with i := 0x300 })) = true := by decide +kernel

/-- W9: the first byte's own write would have been legal. -/
theorem test_ldB_reserved :
    faults 0xF233 { State.reset.setV 2 156 with i := 0xFFF } (.reservedMemoryWrite 0x200 0x000) := by
  simp only [faults]
  rfl

/-- V70. -/
theorem test_ldMemV :
    gives (fun t => Memory.read t.mem 0x300 == 0x11 && Memory.read t.mem 0x302 == 0x33 && t.i == 0x302)
      (run 0xF255 ({ ((State.reset.setV 0 0x11).setV 1 0x22).setV 2 0x33 with i := 0x300 })) = true := by decide +kernel

/-- V71. -/
theorem test_ldMemV_superMode :
    gives (fun t => Memory.read t.mem 0x301 == 0x22 && t.i == 0x300)
      (run 0xF255 ({ ((State.reset.setV 0 0x11).setV 1 0x22).setV 2 0x33 with i := 0x300, superMode := true })) = true := by decide +kernel

/-- V76: the last two bytes come from the hex font. -/
theorem test_ldVMem_wraps :
    gives (fun t => t.getV 0 == 0x12 && t.getV 1 == 0x34 && t.getV 2 == 0xF0 && t.getV 3 == 0x90 && t.i == 0x1001)
      (run 0xF365 (poke 0xFFF 0x34 (poke 0xFFE 0x12 { State.reset with i := 0xFFE }))) = true := by decide +kernel

/-- V79. -/
theorem test_ldRV :
    gives (fun t => t.getFR 6 == 0 && t.getFR 7 == 0xEE)
      (run 0xF775 (State.reset.setV 7 0xEE)) = true := by decide +kernel

/-- V80. -/
theorem test_ldRV_range : faults 0xF875 State.reset (.invalidFlagRegisterRange 0x200 8) := by
  simp only [faults]
  rfl

/-- V81. -/
theorem test_ldVR :
    gives (fun t => t.getV 0 == 7 && t.getV 1 == 8 && t.getV 2 == 9)
      (run 0xF285 (((State.reset.setFR 0 7).setFR 1 8).setFR 2 9)) = true := by decide +kernel

/-- V82. -/
theorem test_ldVR_range : faults 0xFF85 State.reset (.invalidFlagRegisterRange 0x200 15) := by
  simp only [faults]
  rfl

/-! ## Timers, random and key -/

/-- V83. -/
theorem test_ldVxDt :
    gives (fun t => t.getV 5 == 0x3C)
      (run 0xF507 ({ State.reset with delay := 0x3C })) = true := by decide +kernel

/-- V84. -/
theorem test_ldDtVx :
    gives (fun t => t.delay == 0x3C)
      (run 0xF515 (State.reset.setV 5 0x3C)) = true := by decide +kernel

/-- V85. -/
theorem test_ldStVx :
    gives (fun t => t.sound == 3 && t.events == [.sound true])
      (run 0xF518 (State.reset.setV 5 3)) = true := by decide +kernel

/-- V86. -/
theorem test_ldStVx_zero :
    gives (fun t => t.sound == 0 && t.events == [.sound false])
      (run 0xF518 ({ State.reset with sound := 5 })) = true := by decide +kernel

/-- V87, V88. -/
theorem test_tick :
    tick { State.reset with delay := 1, sound := 1 } = { State.reset with events := [.sound false] } ∧
    tick { State.reset with sound := 2 } = { State.reset with sound := 1 } := ⟨rfl, rfl⟩

/-- V89, V90. -/
theorem test_tick_inert :
    tick State.reset = State.reset ∧
    tick { State.reset with delay := 5, status := .halted } = { State.reset with delay := 5, status := .halted } :=
  ⟨rfl, rfl⟩

/-- V91: the draw is 0xAB. -/
theorem test_rnd (h : Config.randomByte 0 = 0xAB) :
    gives (fun t => t.getV 3 == 0x0B) (exec (.rnd 3 0x0F) State.reset) = true := by
  have h' : State.reset.randomByte = 0xAB := h
  simp only [exec, execRnd, h', finish, gives]
  decide +kernel

/-- V94: no key. -/
theorem test_ldVxK_waits (h : Config.keyChoice 0 = none) :
    gives (fun t => t.pc == 0x200 && t.lastResult == some .waiting) (exec (.ldVxK 3) State.reset) = true := by
  have h' : State.reset.waitKey = none := by simp only [State.waitKey, show State.reset.inputs = 0 from rfl, h]
  simp only [exec, execLdVxK, h', gives]
  decide +kernel

/-- V95: the key 7. -/
theorem test_ldVxK (h : Config.keyChoice 0 = some 7) :
    gives (fun t => t.getV 3 == 7 && t.pc == 0x202) (exec (.ldVxK 3) State.reset) = true := by
  have h' : State.reset.waitKey = some 7 := by simp only [State.waitKey, show State.reset.inputs = 0 from rfl, h]; rfl
  simp only [exec, execLdVxK, h', gives]
  decide +kernel

/-! ## Display -/

/-- V96. -/
theorem test_cls :
    gives (fun t => t.scr == blankScreen && t.events == [.frame blankScreen])
      (run 0x00E0 (lit [(3, 4), (63, 127)] State.reset)) = true := by decide +kernel

/-- V97. -/
theorem test_scd :
    gives (fun t => t.scr == only [(3, 5)])
      (run 0x00C3 (lit [(0, 5), (62, 0)] { State.reset with largeScreen := true })) = true := by decide +kernel

/-- V98. -/
theorem test_scd_odd_low : faults 0x00C3 (lit [(0, 5)] State.reset) (.invalidScroll 0x200 3) := by
  simp only [faults]
  rfl

/-- V101. -/
theorem test_scr :
    gives (fun t => t.scr == only [(10, 4)])
      (run 0x00FB (lit [(10, 0), (10, 125)] State.reset)) = true := by decide +kernel

/-- V102. -/
theorem test_scl :
    gives (fun t => t.scr == only [(10, 123)])
      (run 0x00FC (lit [(10, 3), (10, 127)] State.reset)) = true := by decide +kernel

/-- V103. -/
theorem test_low :
    gives (fun t => t.largeScreen == false && t.scr == only [(1, 1)] && t.events == [])
      (run 0x00FE (lit [(1, 1)] { State.reset with largeScreen := true })) = true := by decide +kernel

/-- V104. -/
theorem test_high :
    gives (fun t => t.largeScreen == true && t.scr == blankScreen)
      (run 0x00FF ({ State.reset with largeScreen := true })) = true := by decide +kernel

/-- V105. -/
theorem test_drw_high :
    gives (fun t => t.scr == only [(0, 4), (0, 5), (0, 126), (0, 127)] && t.getV vF == 0)
      (run 0xD011 (poke 0x300 0xC3 { State.reset.setV 0 0x7E with i := 0x300, largeScreen := true })) = true := by decide +kernel

/-- V109. -/
theorem test_drw_collides :
    gives (fun t => t.scr == only [(0, 0), (0, 1), (0, 2), (0, 3), (1, 0), (1, 1), (1, 2)] && t.getV vF == 1)
      (run 0xD011 (lit [(1, 3)] (poke 0x300 0xC0 { State.reset with i := 0x300 }))) = true := by decide +kernel

/-- V112. -/
theorem test_drw16_low :
    gives (fun t => t.getV vF == 0 && t.scr == blankScreen && t.events == [])
      (run 0xD230 (State.reset.setV 15 1)) = true := by decide +kernel

/-- R269: the second byte of a row is its right half (a sprite of one bit, in row 1, at the right edge). -/
theorem test_drw16_high :
    gives (fun t => t.scr == only [(1, 15)] && t.getV vF == 0)
      (run 0xD230 (poke 0x303 0x01 { State.reset with i := 0x300, largeScreen := true })) = true := by decide +kernel

/-! ## Fetch, load and step -/

/-- V113, V114: the range check comes first. -/
theorem test_fetch_faults :
    fetchInstr { State.reset with pc := 0x1001 } = .error (.pcOutOfRange 0x1001) ∧
    fetchInstr { State.reset with pc := 0x203 } = .error (.misalignedPc 0x203) := ⟨rfl, rfl⟩

/-- V116, W1: the empty program. -/
theorem test_empty_program_faults :
    gives (fun s => gives (fun t => t.status == .faulted (.invalidOpcode 0x200 0 0)) (advance s)) 
      (load [] false Config.defaultHexFont Config.defaultLargeFont Config.keyCodes) = true := by decide +kernel

/-- V118: 3585 bytes are refused. -/
theorem test_load_refuses :
    load (List.replicate 3585 0) false Config.defaultHexFont Config.defaultLargeFont Config.keyCodes =
      .refused (.programTooLong 3585) := by
  rw [load, if_pos (by rw [List.length_replicate]; decide), List.length_replicate]

/-- R8, R340, R343: a program of three bytes and the byte after it, another hex font and other key codes. -/
theorem test_load :
    gives (fun t => Memory.read t.mem 0x200 == 0x6A && Memory.read t.mem 0x202 == 0xA3 && Memory.read t.mem 0x203 == 0 &&
      Memory.read t.mem 0x04F == 0x11 && Memory.read t.mem 0x080 == 0x3C && t.pc == 0x200 && t.superMode &&
      t.keyCodes == [0x41])
      (load [0x6A, 0x9C, 0xA3] true (Vector.replicate 80 0x11) Config.defaultLargeFont [0x41]) = true := by
  decide +kernel

/-- V119. -/
theorem test_fonts :
    [0, 1, 2, 3, 4].map (Memory.read State.reset.mem) = [0xF0, 0x90, 0x90, 0x90, 0xF0] ∧
    [0x80, 0x81, 0x82, 0x88, 0x89].map (Memory.read State.reset.mem) = [0x3C, 0x7E, 0xE7, 0x7E, 0x3C] := by decide +kernel

/-- R315: a due Tick is a step of its own, and the `advance` comes after it. -/
theorem test_step_is_a_due_tick :
    gives (fun t => t.delay == 4 && t.ticksDue == 0 && t.pc == 0x200 && t.v == State.reset.v)
      (step { State.reset.withFetchWord 16 0x6A42 with delay := 5, ticksDue := 1 }) = true := by decide +kernel

/-- The first step after reset runs the word placed where it fetches. -/
theorem test_step_after_reset : gives (fun t => t.getV 10 == 0x42) (step (State.reset.withFetchWord 16 0x6A42)) = true := by
  decide +kernel

/-! ## Witnesses: the hypotheses of the statements are met, each clause at the ends of its range -/

/-- DecodeOfEncodeIsTheInstruction. -/
theorem witness_wellFormed :
    (Instr.drw 0 1 1).wellFormed = true ∧ (Instr.drw 15 15 15).wellFormed = true ∧ (Instr.scd 15).wellFormed = true := by decide +kernel

/-- EncodeOfDecodedIsTheWord. -/
theorem witness_decodes :
    decode 0xFF 0x85 = .ok (.ldVR 15) := by decide +kernel

/-- InvalidWordsAreThoseListed. -/
theorem witness_listedInvalid :
    listedInvalid 0 ∧ listedInvalid 0x00BF ∧ ¬listedInvalid 0x00C0 ∧ ¬listedInvalid 0x00CF ∧ listedInvalid 0x00D0 ∧
    listedInvalid 0x0FFF ∧ ¬listedInvalid 0x1000 ∧ ¬listedInvalid 0xFF85 ∧ listedInvalid 0xFFFF := by
  refine ⟨?_, ?_, ?_, ?_, ?_, ?_, ?_, ?_, ?_⟩ <;> decide +kernel

/-- StepRunsTheDecodedInstruction, at the last word of memory, and with a Tick due. -/
theorem witness_step_runs :
    (∃ u : State, u.status = .running ∧ u.ticksDue = 0 + 1) ∧
    ∃ s : State, s.status = .running ∧ s.ticksDue = 0 ∧ s.pc.toNat ≤ 0xFFE ∧ s.pc.toNat % 2 = 0 ∧
    decode (Memory.read s.mem s.pc.toNat) (Memory.read s.mem (s.pc.toNat + 1)) = .ok (.call 0xFFE) := 
  ⟨⟨{ State.reset with ticksDue := 1 }, by decide +kernel⟩,
    State.withFetchWord { State.reset with pc := 0xFFE } 16 0x2FFE, by decide +kernel⟩

/-- FetchFaultsComeInOrder: `PC` 0xFFF, 0xFFD and 0x200 after reset. -/
theorem witness_fetch_clauses :
    State.reset.status = .running ∧ 0xFFE < (0xFFF : Word).toNat ∧
    ((0xFFD : Word).toNat ≤ 0xFFE ∧ (0xFFD : Word).toNat % 2 = 1) ∧
    (State.reset.pc.toNat ≤ 0xFFE ∧ State.reset.pc.toNat % 2 = 0 ∧ listedInvalid
      ((Memory.read State.reset.mem State.reset.pc.toNat).toNat * 256 +
        (Memory.read State.reset.mem (State.reset.pc.toNat + 1)).toNat)) := by decide +kernel

/-- StoppedMachineHasNoStep. -/
theorem witness_stopped :
    ∃ s u : State, s.status = .halted ∧ u.status = .faulted (.stackOverflow 0x200) := ⟨{ State.reset with status := .halted }, { State.reset with status := .faulted (.stackOverflow 0x200) }, rfl, rfl⟩

/-- FaultLeavesEverythingElse, and StepRunsTheDecodedInstruction where the fetch faults. -/
theorem witness_advance_faults :
    (∃ t, advance State.reset = .next t ∧ t.status = .faulted (.invalidOpcode 0x200 0 0)) ∧
    State.reset.status = .running ∧ State.reset.ticksDue = 0 ∧
    ∃ t, step State.reset = .next t ∧ t.status = .faulted (.invalidOpcode 0x200 0 0) := 
  ⟨⟨_, rfl, rfl⟩, rfl, rfl, _, rfl, rfl⟩

/-- OnlyExitHaltsTheMachine. -/
theorem witness_step_halts :
    ∃ t, step (State.reset.withFetchWord 16 0x00FD) = .next t ∧ t.status = .halted := ⟨_, rfl, rfl⟩

/-- TickCountsTheTimersDown: `S` 1, and `S` not 1, and a machine not running. -/
theorem witness_tick_clauses :
    State.reset.status = .running ∧ ({ State.reset with sound := 1 } : State).sound.toNat = 1 ∧
    State.reset.sound.toNat ≠ 1 ∧ ({ State.reset with sound := 255 } : State).sound.toNat ≠ 1 ∧
    ({ State.reset with status := .halted } : State).status ≠ .running := by decide +kernel

/-- ResetValuesTheSpecDecides: the ends of the gaps. -/
theorem witness_zero_bytes :
    ∀ a ∈ [0x50, 0x7F, 0xE4, 0xFFF], (0x50 ≤ a ∧ a ≤ 0x7F) ∨ 0xE4 ≤ a := by decide +kernel

/-- LoadPlacesTheProgram: 3584 bytes and 3585. -/
theorem witness_load_clauses :
    (List.replicate 3584 (0xAA : Byte)).length ≤ 3584 ∧ (List.replicate 3584 (0xAA : Byte))[3583]? = some 0xAA ∧
    3584 < (List.replicate 3585 (0xAA : Byte)).length := by
  simp only [List.length_replicate, List.getElem?_replicate]
  decide

/-- StepKeepsTheInvariant, NoStepWritesBelowTheProgram and NoStepWritesSuperMode. -/
theorem witness_inv_step :
    State.reset.Inv ∧ ∃ t, step State.reset = .next t := ⟨by decide +kernel, _, rfl⟩

/-- CallPushesItsOwnAddress and CallThenReturnComesBack: no entry, 15 entries, 16 entries. -/
theorem witness_call_clauses :
    State.reset.sc < 15 ∧ ({ State.reset with depth := 15 } : State).sc < 15 ∧ ({ State.reset with depth := 16 } : State).sc = 15 := by decide +kernel

/-- ReturnGoesPastTheCall: 1 and 16 entries held, the last a CALL at 0xFFE; and none. -/
theorem witness_ret_clauses :
    ∃ s u : State, s.sc = ((0 : Fin 16).val : Int) ∧ s.StackOk ∧ u.sc = ((15 : Fin 16).val : Int) ∧ u.StackOk ∧ State.reset.sc = -1 := 
  ⟨{ State.reset with depth := 1 }, { State.reset with depth := 16, stack := Vector.replicate 16 0xFFE }, by decide +kernel⟩

/-- The frames of the register writes: a register that is neither the target nor `V[F]`, and a target that is not `V[F]`. -/
theorem witness_other_register :
    (0 : Reg) ≠ 1 ∧ (0 : Reg) ≠ vF ∧ (1 : Reg) ≠ vF := by decide +kernel

/-- LargeGlyphAddressOrFault: 9 and 10. -/
theorem witness_glyph_clauses :
    ((State.reset.setV 4 9).getV 4).toNat ≤ 9 ∧ 9 < ((State.reset.setV 4 10).getV 4).toNat := by decide +kernel

/-- DecimalStoreWritesThreeDigits and BlockStoreWritesTheRegisters: the lowest `I`, the highest `I`, memory canonical, an
address outside, and both modes. -/
theorem witness_writable :
    (∀ k < 3, 0x200 ≤ ea { State.reset with i := 0x200 } k) ∧ (∀ k < 3, 0x200 ≤ ea { State.reset with i := 0xFFD } k) ∧
    (∀ k ≤ (15 : Reg).val, 0x200 ≤ ea { State.reset with i := 0xFF0 } k) ∧
    (∀ k ≤ (15 : Reg).val, 0x1FF ≠ ea { State.reset with i := 0x200 } k) ∧
    Memory.wf State.reset.mem = true ∧ State.reset.superMode = false ∧ ({ State.reset with superMode := true } : State).superMode = true := by decide +kernel

/-- StoresBelowTheProgramFault: the first target, and the last of Fx33 and of FF55. -/
theorem witness_reserved :
    ea { State.reset with i := 0x1FF } 0 < 0x200 ∧
    (ea { State.reset with i := 0xFFE } 2 < 0x200 ∧ ∀ j < 2, 0x200 ≤ ea { State.reset with i := 0xFFE } j) ∧
    (ea { State.reset with i := 0xFF1 } 15 < 0x200 ∧ ∀ j < 15, 0x200 ≤ ea { State.reset with i := 0xFF1 } j) := by decide +kernel

/-- BlockLoadReadsTheRegisters: the ends of the block, and both modes. -/
theorem witness_block_registers :
    (0 : Reg).val ≤ (3 : Reg).val ∧ (3 : Reg).val ≤ (3 : Reg).val ∧ (3 : Reg).val < (4 : Reg).val ∧ State.reset.superMode = false ∧
    ({ State.reset with superMode := true } : State).superMode = true := by decide +kernel

/-- FlagRegistersSaveOrFault and FlagRegistersRestoreOrFault: `x` 7 and 8, a flag register inside the block and one outside. -/
theorem witness_flag_register_clauses :
    (7 : Reg).val ≤ 7 ∧ 7 < (8 : Reg).val ∧ (7 : FlagReg).val ≤ (7 : Reg).val ∧ (0 : Reg).val < (7 : FlagReg).val := by decide +kernel

/-- ScrollDownOrFault: 15 rows in high resolution, 14 in low, 15 in low. -/
theorem witness_scroll_down_clauses :
    ({ State.reset with largeScreen := true } : State).largeScreen = true ∧ (14 : Nibble).toNat % 2 = 0 ∧ (0 : Nibble).toNat % 2 = 0 ∧
    (State.reset.largeScreen = false ∧ (15 : Nibble).toNat % 2 = 1) ∧
    (63 : Fin 64).val = (48 : Fin 64).val + (15 : Nibble).toNat ∧ (14 : Fin 64).val < (15 : Nibble).toNat := by decide +kernel

/-- SidewaysScrollsMoveFourColumns: the edges. -/
theorem witness_scroll_columns :
    (127 : Fin 128).val = (123 : Fin 128).val + 4 ∧ (3 : Fin 128).val < 4 ∧ 124 ≤ (124 : Fin 128).val := by decide +kernel

/-- DrawInvertsTheCoveredPixels, and WideDrawInHighResolutionOnly in both modes. -/
theorem witness_draw_rows :
    (1 : Nibble) ≠ 0 ∧ (15 : Nibble) ≠ 0 ∧ State.reset.largeScreen = false ∧
    ({ State.reset with largeScreen := true } : State).largeScreen = true := by decide +kernel

/-- The clauses of a draw: a covered pixel that is clear, and one that is not covered (glyph "0" at `I` 0, high resolution). -/
theorem witness_covered_pixel :
    ∃ s : State, Covers8 s 0 1 5 (0, 0) ∧ pixelAt s.scr (0, 0) = false ∧ ¬Covers8 s 0 1 5 (1, 1) := ⟨{ State.reset with largeScreen := true }, by decide +kernel⟩

/-- The clauses of a draw: a covered pixel that is set. -/
theorem witness_covered_pixel_set :
    ∃ s : State, Covers8 s 0 1 5 (0, 0) ∧ pixelAt s.scr (0, 0) = true := ⟨lit [(0, 0)] { State.reset with largeScreen := true }, by decide +kernel⟩

/-- DrawTwiceRestoresTheScreen: the second draw from the state the first left. -/
theorem witness_draw_twice :
    ∃ s t : State, exec (.drw 0 1 5) s = .next t ∧ t.scr = t.scr ∧ t.getV 0 = s.getV 0 ∧ t.getV 1 = s.getV 1 ∧
    t.largeScreen = s.largeScreen ∧ ∀ r < 5, byteAt t r = byteAt s r := ⟨State.reset, _, rfl, rfl, rfl, rfl, rfl, fun _ _ => rfl⟩

/-- DrawTwiceRestoresTheScreen, Dxy0 in high resolution. -/
theorem witness_wide_draw_twice :
    ∃ s t : State, s.largeScreen = true ∧ exec (.drw16 0 1) s = .next t ∧ t.scr = t.scr ∧ t.getV 0 = s.getV 0 ∧
    t.getV 1 = s.getV 1 ∧ t.largeScreen = s.largeScreen ∧ ∀ r < 32, byteAt t r = byteAt s r := 
  ⟨{ State.reset with largeScreen := true }, _, rfl, rfl, rfl, rfl, rfl, rfl, fun _ _ => rfl⟩

/-- OnlyTwoInstructionsWriteMemory, OnlyCallAndReturnUseTheStack, EventsAreThoseTabled (an instruction with a frame, the sound
event, and one with none), NoInstructionReadsTheSoundTimer, ScreenIsSeenByCollisionOnly and AddressRegisterIsSeenModulo4096. -/
theorem witness_exec_next :
    (∃ t, exec .cls State.reset = .next t) ∧ (∃ t, exec (.ldStVx 5) State.reset = .next t) ∧ ∃ t, exec .high State.reset = .next t := ⟨⟨_, rfl⟩, ⟨_, rfl⟩, ⟨_, rfl⟩⟩

/-- The exclusions of those statements leave instructions over. -/
theorem witness_not_excluded :
    (∀ x, Instr.cls ≠ .ldB x) ∧ (∀ x, Instr.cls ≠ .ldMemV x) ∧ (∀ a, Instr.cls ≠ .call a) ∧ Instr.cls ≠ .ret ∧
    (∀ x y n, Instr.cls ≠ .drw x y n) ∧ (∀ x y, Instr.cls ≠ .drw16 x y) ∧ (∀ x, Instr.high ≠ .ldStVx x) := by
  refine ⟨?_, ?_, ?_, ?_, ?_, ?_, ?_⟩ <;> intros <;> exact Instr.noConfusion

end Sys2Proof.Tests
end

section
/-! PROOFS. Control flow (40_control_flow R130 to R136). -/

namespace Sys2Proof.Machine

/-- Padding a 12-bit address to a word keeps its number (R10). -/
@[simp] theorem toNat_zext16_addr (nnn : Addr12) : (zext16 nnn).toNat = nnn.toNat :=
  BitVec.toNat_setWidth_of_le (by decide)

/-- `SC` below 15 is room for one more entry (R36, R37). -/
theorem sc_lt_iff_room (s : State) : s.sc < 15 ↔ s.depth.val < Config.stackDepth := by
  simp only [State.sc, Config.stackDepth]
  omega

/-- `SC` at 15 is a full stack (R36, R37). -/
theorem sc_eq_iff_full (s : State) : s.sc = 15 ↔ s.depth.val = Config.stackDepth := by
  simp only [State.sc, Config.stackDepth]
  omega

/-- CALL with room on the stack: its own address at the new cursor, then the jump (R131). -/
theorem exec_call_of_room (nnn : Addr12) (s : State) (h : s.depth.val < Config.stackDepth) :
    exec (.call nnn) s = .next { s with
      pc := zext16 nnn, depth := ⟨s.depth.val + 1, Nat.succ_lt_succ h⟩, stack := s.stack.set s.depth.val s.pc h,
      lastResult := some .continued } := by
  simp only [exec, execCall, push_of_lt s.pc s h, jumpTo]

/-- CALL on a full stack raises `StackOverflow` at its own address (R37, R131). -/
theorem exec_call_of_full (nnn : Addr12) (s : State) (h : s.depth.val = Config.stackDepth) :
    exec (.call nnn) s = raise (.stackOverflow s.pc) s := by
  simp only [exec, execCall, push_full s.pc s h]

/-- Settles O18: with room the entry pushed is read back from the updated stack at the new cursor and every other entry
is outside the update; with none, `Push` fails and the fault is taken. -/
theorem callPushesItsOwnAddress : Obligations.CallPushesItsOwnAddress := by
  unfold Obligations.CallPushesItsOwnAddress
  intro nnn s
  constructor
  · intro hsc
    have room := (sc_lt_iff_room s).mp hsc
    have cursor (k : Fin 16) : (k.val : Int) = s.sc + 1 ↔ s.depth.val = k.val := by
      simp only [State.sc]
      omega
    refine ⟨_, exec_call_of_room nnn s room, toNat_zext16_addr nnn, ?_, ?_, ?_, rfl⟩
    · simp only [State.sc]
      omega
    · intro k hk
      simp only [Vector.getElem_set, if_pos ((cursor k).mp hk)]
    · intro k hk
      simp only [Vector.getElem_set, if_neg (mt (cursor k).mpr hk)]
  · intro hsc
    rw [exec_call_of_full nnn s ((sc_eq_iff_full s).mp hsc), raise_eq]

end Sys2Proof.Machine
end

section
/-! PROOFS. Arithmetic with a flag (42_arithmetic R177 to R181): the result first, the flag last. -/

namespace Sys2Proof.Machine

/-! ### What a result with a flag leaves in the registers -/

/-- The result stands in `V[x]` unless the flag written after it stands there (R170, decision D7). -/
theorem getV_setResultFlag_result (s : State) {x : Reg} (r f : Byte) (hx : x ≠ vF) :
    (s.setResultFlag x r f).getV x = r := by
  rw [State.getV_setResultFlag, if_neg hx.symm, if_pos rfl]

/-- `V[F]` holds the flag, whatever `x` is (R170, decision D7). -/
theorem getV_setResultFlag_flag (s : State) (x : Reg) (r f : Byte) : (s.setResultFlag x r f).getV vF = f := by
  rw [State.getV_setResultFlag, if_pos rfl]

theorem getV_setResultFlag_other (s : State) {x q : Reg} (r f : Byte) (hx : q ≠ x) (hF : q ≠ vF) :
    (s.setResultFlag x r f).getV q = s.getV q := by
  rw [State.getV_setResultFlag, if_neg hF.symm, if_neg hx.symm]

/-- What the five instructions have in common: the result `r` unless `x = F`, the flag `f` in `V[F]`, the other registers
and everything else as R170 and R111 leave them. -/
theorem completed_setResultFlag_frame (s : State) (x : Reg) (r f : Byte) :
    (∀ q, q ≠ x → q ≠ vF → (completed (s.setResultFlag x r f)).getV q = s.getV q) ∧
    completed (s.setResultFlag x r f) =
      { s with v := (completed (s.setResultFlag x r f)).v, pc := s.pc + 2, lastResult := some .continued } :=
  ⟨fun _ hx hF => getV_setResultFlag_other s r f hx hF, rfl⟩

/-! ### The results and the flags as numbers -/

/-- The difference of two bytes as R178 computes it. -/
theorem toNat_sub_bytes (a b : Byte) : (a - b).toNat = (a.toNat + 256 - b.toNat) % 256 := by
  have := b.isLt
  rw [BitVec.toNat_sub]
  omega

/-- A byte shifted right by one is its half (R179). -/
theorem toNat_byte_shiftRight_one (a : Byte) : (a >>> 1).toNat = a.toNat / 2 := by
  rw [BitVec.toNat_ushiftRight, Nat.shiftRight_eq_div_pow, pow_one]

/-- A byte shifted left by one is its double mod 256 (R181). -/
theorem toNat_byte_shiftLeft_one (a : Byte) : (a <<< 1).toNat = a.toNat * 2 % 256 := by
  rw [BitVec.toNat_shiftLeft, Nat.shiftLeft_eq, pow_one]

theorem flagByte_decide (p : Prop) [Decidable p] : flagByte (decide p) = if p then 1 else 0 := by
  simp only [flagByte, decide_eq_true_eq]

theorem toNat_flagByte (b : Bool) : (flagByte b).toNat = b.toNat := by
  cases b <;> rfl

/-- The bit 8xy6 shifts out is the remainder of the halving (R179). -/
theorem toNat_lowBitFlag (a : Byte) : (lowBitFlag a).toNat = a.toNat % 2 := by
  rw [lowBitFlag, toNat_flagByte, BitVec.getLsbD, Nat.toNat_testBit, pow_zero, Nat.div_one]

/-- The bit 8xyE shifts out is the carry of the doubling (R181). -/
theorem toNat_highBitFlag (a : Byte) : (highBitFlag a).toNat = a.toNat / 128 := by
  have := a.isLt
  rw [highBitFlag, toNat_flagByte, BitVec.getLsbD, Nat.toNat_testBit]
  omega

/-! ### The five instructions -/

theorem exec_addReg (x y : Reg) (s : State) : exec (.addReg x y) s =
    .next (completed (s.setResultFlag x (s.getV x + s.getV y) (carryFlag (s.getV x) (s.getV y)))) := rfl

theorem exec_sub (x y : Reg) (s : State) : exec (.sub x y) s =
    .next (completed (s.setResultFlag x (s.getV x - s.getV y) (noBorrowFlag (s.getV x) (s.getV y)))) := rfl

theorem exec_subn (x y : Reg) (s : State) : exec (.subn x y) s =
    .next (completed (s.setResultFlag x (s.getV y - s.getV x) (noBorrowFlag (s.getV y) (s.getV x)))) := rfl

theorem exec_shr (x y : Reg) (s : State) : exec (.shr x y) s =
    .next (completed (s.setResultFlag x (shiftSource s x y >>> 1) (lowBitFlag (shiftSource s x y)))) := rfl

theorem exec_shl (x y : Reg) (s : State) : exec (.shl x y) s =
    .next (completed (s.setResultFlag x (shiftSource s x y <<< 1) (highBitFlag (shiftSource s x y)))) := rfl

/-- Settles O28: the sum of two bytes wraps at 256, and the flag is written last (D7). -/
theorem addSetsTheCarry : Obligations.AddSetsTheCarry := by
  unfold Obligations.AddSetsTheCarry
  intro x y s
  refine ⟨_, exec_addReg x y s, fun hx => ?_, ?_, completed_setResultFlag_frame s x _ _⟩
  · rw [completed_getV, getV_setResultFlag_result s _ _ hx, BitVec.toNat_add]
  · rw [completed_getV, getV_setResultFlag_flag, carryFlag, flagByte_decide]

/-- Settles O29: the difference of two bytes wraps at 256, and the flag is written last (D7). -/
theorem subSetsNoBorrow : Obligations.SubSetsNoBorrow := by
  unfold Obligations.SubSetsNoBorrow
  intro x y s
  refine ⟨_, exec_sub x y s, fun hx => ?_, ?_, completed_setResultFlag_frame s x _ _⟩
  · rw [completed_getV, getV_setResultFlag_result s _ _ hx, toNat_sub_bytes]
  · rw [completed_getV, getV_setResultFlag_flag, noBorrowFlag, flagByte_decide]

/-- Settles O30: as O29, with the operands in the reverse order (R180). -/
theorem reverseSubSetsNoBorrow : Obligations.ReverseSubSetsNoBorrow := by
  unfold Obligations.ReverseSubSetsNoBorrow
  intro x y s
  refine ⟨_, exec_subn x y s, fun hx => ?_, ?_, completed_setResultFlag_frame s x _ _⟩
  · rw [completed_getV, getV_setResultFlag_result s _ _ hx, toNat_sub_bytes]
  · rw [completed_getV, getV_setResultFlag_flag, noBorrowFlag, flagByte_decide]

/-- Settles O31: a shift by one bit is a halving or a doubling of the source, and the bit shifted out is what that leaves
over; the flag is written last (D7). -/
theorem shiftsMoveTheirSourceByOneBit : Obligations.ShiftsMoveTheirSourceByOneBit := by
  unfold Obligations.ShiftsMoveTheirSourceByOneBit
  intro x y s
  constructor
  · refine ⟨_, exec_shr x y s, fun hx => ?_, ?_, completed_setResultFlag_frame s x _ _⟩
    · rw [completed_getV, getV_setResultFlag_result s _ _ hx, toNat_byte_shiftRight_one, shiftSource]
    · rw [completed_getV, getV_setResultFlag_flag, toNat_lowBitFlag, shiftSource]
  · refine ⟨_, exec_shl x y s, fun hx => ?_, ?_, completed_setResultFlag_frame s x _ _⟩
    · rw [completed_getV, getV_setResultFlag_result s _ _ hx, toNat_byte_shiftLeft_one, shiftSource]
    · rw [completed_getV, getV_setResultFlag_flag, toNat_highBitFlag, shiftSource]

end Sys2Proof.Machine
end

section
/-! PROOFS. Memory transfer: the hex glyph address (43_memory_transfer R202). -/

namespace Sys2Proof.Machine

/-- The last glyph starts at 0x04B, so no glyph address wraps as a word (R202). -/
theorem toNat_hexGlyph (b : Byte) : (hexGlyph b).toNat = 0x000 + 5 * (b.toNat % 16) := by
  have below : Config.hexFontBase + 5 * (b.toNat % 16) < 2 ^ 16 := by
    simp only [Config.hexFontBase]
    omega
  rw [hexGlyph, BitVec.toNat_ofNat, Nat.mod_eq_of_lt below, Config.hexFontBase]

theorem exec_ldF (x : Reg) (s : State) :
    exec (.ldF x) s = .next (completed { s with i := hexGlyph (s.getV x) }) := rfl

/-- Settles O33: the glyph address stands in `I`, and only the end of the instruction (R111) writes anything else. -/
theorem hexGlyphAddress : Obligations.HexGlyphAddress := by
  unfold Obligations.HexGlyphAddress
  intro x s
  refine ⟨_, exec_ldF x s, ?_, rfl⟩
  rw [completed_i, toNat_hexGlyph]

end Sys2Proof.Machine
end

section
/-! PROOFS. Encoding and decoding (30_encoding R100 to R110). -/

namespace Sys2Proof

/-- The word of 00Cn holds its count in the low nibble under a fixed rest (R104). -/
theorem decodeWord_scd (n : Nibble) : decodeWord (0x00C#12 ++ n) = .ok (.scd n) := by
  revert n
  decide

/-- Settles O1: each field read from a word built by its layout is the field written (Sys2Proof/Laws/Fields), so every
branch of the decoder is decided by the constants of the pattern. -/
theorem decodeOfEncodeIsTheInstruction : Obligations.DecodeOfEncodeIsTheInstruction := by
  unfold Obligations.DecodeOfEncodeIsTheInstruction
  intro i wf
  rw [decode_bytes]
  cases i
  case scd n => exact decodeWord_scd n
  case cls | ret | scr | scl | exit | low | high => rfl
  case drw x y n =>
    have hn : n ≠ 0#4 := by simpa [Instr.wellFormed] using wf
    simp [encode, decodeWord, hn]
  all_goals simp [encode, decodeWord, decodeOp8, decodeOpE, decodeOpF]

/-! ### Fields as numbers, and words put together from their fields -/

theorem op1_eq_iff (w : Word) (o : Nibble) : op1 w = o ↔ w.toNat / 4096 = o.toNat := by
  rw [← BitVec.toNat_inj, toNat_op1]

theorem op3_eq_iff (w : Word) (o : Nibble) : op3 w = o ↔ w.toNat / 16 % 16 = o.toNat := by
  rw [← BitVec.toNat_inj, toNat_op3]

theorem op4_eq_iff (w : Word) (o : Nibble) : op4 w = o ↔ w.toNat % 16 = o.toNat := by
  rw [← BitVec.toNat_inj, toNat_op4]

theorem byte0_eq_iff (w : Word) (b : Byte) : byte0 w = b ↔ w.toNat / 256 = b.toNat := by
  rw [← BitVec.toNat_inj, toNat_byte0]

theorem byte1_eq_iff (w : Word) (b : Byte) : byte1 w = b ↔ w.toNat % 256 = b.toNat := by
  rw [← BitVec.toNat_inj, toNat_byte1]

/-- A word is its fields in format `A` (R101). -/
theorem formatA_fields {w : Word} {o : Nibble} (ho : w.toNat / 4096 = o.toNat) : formatA o (fieldNnn w) = w := by
  apply BitVec.eq_of_toNat_eq
  rw [toNat_formatA, toNat_fieldNnn]
  omega

/-- A word is its fields in formats `XB` and `XF` (R101). -/
theorem formatXB_fields {w : Word} {o : Nibble} {b : Byte} (ho : w.toNat / 4096 = o.toNat)
    (hb : w.toNat % 256 = b.toNat) : formatXB o (regOf (op2 w)) b = w := by
  apply BitVec.eq_of_toNat_eq
  rw [toNat_formatXB, val_regOf, toNat_op2]
  omega

/-- A word is its fields in formats `XY` and `XYN` (R101). -/
theorem formatXY_fields {w : Word} {o f : Nibble} (ho : w.toNat / 4096 = o.toNat) (hf : w.toNat % 16 = f.toNat) :
    formatXY o (regOf (op2 w)) (regOf (op3 w)) f = w := by
  apply BitVec.eq_of_toNat_eq
  rw [toNat_formatXY, val_regOf, val_regOf, toNat_op2, toNat_op3]
  omega

/-! ### Everything the decoder can answer -/

/-- The answer of the decoder to a word: InvalidOpcode for a word of the list of R105; for every other word, the
well-formed instruction whose word it is. -/
def AnswersFor (w : Word) (r : Except DecodeError Instr) : Prop :=
  (Machine.listedInvalid w.toNat ∧ r = invalid w) ∨
    (¬Machine.listedInvalid w.toNat ∧ ∃ i, r = .ok i ∧ i.wellFormed = true ∧ encode i = w)

theorem answersFor_invalid {w : Word} (h : Machine.listedInvalid w.toNat) : AnswersFor w (invalid w) := .inl ⟨h, rfl⟩

theorem answersFor_ok {w : Word} {i : Instr} (h : ¬Machine.listedInvalid w.toNat) (wf : i.wellFormed = true)
    (he : encode i = w) : AnswersFor w (.ok i) := .inr ⟨h, i, rfl, wf, he⟩

theorem answersFor_ite {w : Word} {c : Prop} [Decidable c] {r q : Except DecodeError Instr}
    (hr : c → AnswersFor w r) (hq : ¬c → AnswersFor w q) : AnswersFor w (if c then r else q) := by
  split
  · exact hr ‹_›
  · exact hq ‹_›

/-- The list of R105 in plain arithmetic. -/
theorem listedInvalid_iff (w : Nat) : Machine.listedInvalid w ↔
    w ≤ 0x00BF ∨ (0x00D0 ≤ w ∧ w ≤ 0x00DF) ∨ (0x00E1 ≤ w ∧ w ≤ 0x00ED) ∨ (0x00EF ≤ w ∧ w ≤ 0x00FA) ∨
    (0x0100 ≤ w ∧ w ≤ 0x0FFF) ∨ ((w / 4096 = 0x5 ∨ w / 4096 = 0x9) ∧ w % 16 ≠ 0) ∨
    (w / 4096 = 0x8 ∧ 7 < w % 16 ∧ w % 16 ≠ 0xE) ∨ (w / 4096 = 0xE ∧ w % 256 ≠ 0x9E ∧ w % 256 ≠ 0xA1) ∨
    (w / 4096 = 0xF ∧ w % 256 ∉ [0x07, 0x0A, 0x15, 0x18, 0x1E, 0x29, 0x30, 0x33, 0x55, 0x65, 0x75, 0x85]) := by
  have h8 : w % 16 ∈ [0x8, 0x9, 0xA, 0xB, 0xC, 0xD, 0xF] ↔ 7 < w % 16 ∧ w % 16 ≠ 0xE := by
    simp only [List.mem_cons, List.not_mem_nil, or_false]
    omega
  have hE : w % 256 ∉ [0x9E, 0xA1] ↔ w % 256 ≠ 0x9E ∧ w % 256 ≠ 0xA1 := by
    simp only [List.mem_cons, List.not_mem_nil, or_false, not_or, ne_eq]
  simp only [Machine.listedInvalid, h8, hE]

/-- The words 0000 to 0FFF (R103). -/
theorem answersFor_decodeOp0 {w : Word} (h : w.toNat / 4096 = 0) : AnswersFor w (decodeOp0 w) := by
  have fixed {i : Instr} {b : Byte} (h0 : byte0 w = 0x00#8) (h1 : byte1 w = b)
      (hb : ¬Machine.listedInvalid b.toNat) (wf : i.wellFormed = true)
      (he : (encode i).toNat = b.toNat) : AnswersFor w (.ok i) := by
    have hw : w.toNat = b.toNat := by
      rw [byte0_eq_iff, BitVec.toNat_ofNat] at h0
      rw [byte1_eq_iff] at h1
      omega
    exact answersFor_ok (hw ▸ hb) wf (BitVec.eq_of_toNat_eq (he.trans hw.symm))
  unfold decodeOp0
  refine answersFor_ite (fun h0 => answersFor_invalid ?_) fun h0 => ?_
  · simp only [ne_eq, byte0_eq_iff, BitVec.reduceToNat] at h0
    rw [listedInvalid_iff]
    omega
  replace h0 := not_not.mp h0
  refine answersFor_ite (fun hC => ?_) fun hC => ?_
  · have hw : (0x00C#12 ++ op4 w).toNat = w.toNat := by
      rw [BitVec.toNat_append, ← Nat.shiftLeft_add_eq_or_of_lt (op4 w).isLt, toNat_op4]
      simp only [byte0_eq_iff, op3_eq_iff, BitVec.reduceToNat, Nat.shiftLeft_eq] at *
      omega
    refine answersFor_ok ?_ rfl (BitVec.eq_of_toNat_eq hw)
    simp only [byte0_eq_iff, op3_eq_iff, BitVec.reduceToNat] at *
    rw [listedInvalid_iff]
    omega
  iterate 7 refine answersFor_ite (fun h1 => fixed h0 h1 (by decide) rfl rfl) fun h1 => ?_
  refine answersFor_invalid ?_
  simp only [byte0_eq_iff, byte1_eq_iff, op3_eq_iff, BitVec.reduceToNat] at *
  rw [listedInvalid_iff]
  omega

/-- The words 8xyn (R103). -/
theorem answersFor_decodeOp8 {w : Word} (h : w.toNat / 4096 = 8) :
    AnswersFor w (decodeOp8 w (regOf (op2 w)) (regOf (op3 w))) := by
  have row {i : Instr} {f : Nibble} (hf : op4 w = f) (hm : f.toNat ≤ 7 ∨ f.toNat = 0xE)
      (wf : i.wellFormed = true) (he : encode i = formatXY 0x8#4 (regOf (op2 w)) (regOf (op3 w)) f) :
      AnswersFor w (.ok i) := by
    rw [op4_eq_iff] at hf
    refine answersFor_ok ?_ wf (he.trans (formatXY_fields h hf))
    rw [listedInvalid_iff]
    omega
  unfold decodeOp8
  iterate 9 refine answersFor_ite (fun hf => row hf (by decide) rfl rfl) fun hf => ?_
  refine answersFor_invalid ?_
  simp only [op4_eq_iff, BitVec.reduceToNat] at *
  rw [listedInvalid_iff]
  omega

/-- The words Exkk (R103). -/
theorem answersFor_decodeOpE {w : Word} (h : w.toNat / 4096 = 0xE) : AnswersFor w (decodeOpE w (regOf (op2 w))) := by
  have row {i : Instr} {b : Byte} (hb : byte1 w = b) (hm : b.toNat = 0x9E ∨ b.toNat = 0xA1)
      (wf : i.wellFormed = true) (he : encode i = formatXB 0xE#4 (regOf (op2 w)) b) : AnswersFor w (.ok i) := by
    rw [byte1_eq_iff] at hb
    refine answersFor_ok ?_ wf (he.trans (formatXB_fields h hb))
    rw [listedInvalid_iff]
    omega
  unfold decodeOpE
  iterate 2 refine answersFor_ite (fun hb => row hb (by decide) rfl rfl) fun hb => ?_
  refine answersFor_invalid ?_
  simp only [byte1_eq_iff, BitVec.reduceToNat] at *
  rw [listedInvalid_iff]
  omega

/-- The words Fxkk (R103). -/
theorem answersFor_decodeOpF {w : Word} (h : w.toNat / 4096 = 0xF) : AnswersFor w (decodeOpF w (regOf (op2 w))) := by
  have row {i : Instr} {b : Byte} (hb : byte1 w = b)
      (hm : b.toNat ∈ [0x07, 0x0A, 0x15, 0x18, 0x1E, 0x29, 0x30, 0x33, 0x55, 0x65, 0x75, 0x85])
      (wf : i.wellFormed = true) (he : encode i = formatXB 0xF#4 (regOf (op2 w)) b) : AnswersFor w (.ok i) := by
    rw [byte1_eq_iff] at hb
    refine answersFor_ok ?_ wf (he.trans (formatXB_fields h hb))
    rw [← hb] at hm
    simp only [listedInvalid_iff, hm, not_true, and_false, or_false]
    omega
  unfold decodeOpF
  iterate 12 refine answersFor_ite (fun hb => row hb (by decide) rfl rfl) fun hb => ?_
  refine answersFor_invalid ?_
  simp only [byte1_eq_iff, BitVec.reduceToNat] at *
  iterate 8 right
  refine ⟨h, ?_⟩
  simp only [List.mem_cons, List.not_mem_nil, or_false, not_or]
  omega

/-- Everything the decoder can do with a word (R103, R105). -/
theorem answersFor_decodeWord (w : Word) : AnswersFor w (decodeWord w) := by
  have unlisted {o : Nibble} (h : w.toNat / 4096 = o.toNat) (ho : o.toNat ∈ [1, 2, 3, 4, 6, 7, 0xA, 0xB, 0xC, 0xD]) :
      ¬Machine.listedInvalid w.toNat := by
    simp only [List.mem_cons, List.not_mem_nil, or_false] at ho
    rw [listedInvalid_iff]
    omega
  have pairs {o : Nibble} {i : Instr} (h : w.toNat / 4096 = o.toNat) (ho : o.toNat = 5 ∨ o.toNat = 9)
      (wf : i.wellFormed = true) (he : encode i = formatXY o (regOf (op2 w)) (regOf (op3 w)) 0x0#4) :
      AnswersFor w (if op4 w = 0x0#4 then .ok i else invalid w) := by
    refine answersFor_ite (fun hn => ?_) fun hn => answersFor_invalid ?_
    all_goals rw [op4_eq_iff, BitVec.toNat_ofNat] at hn
    · refine answersFor_ok ?_ wf (he.trans (formatXY_fields h hn))
      rw [listedInvalid_iff]
      omega
    · rw [listedInvalid_iff]
      omega
  unfold decodeWord
  split <;> rename_i h <;> rw [op1_eq_iff] at h
  · exact answersFor_decodeOp0 h
  · exact answersFor_ok (unlisted h (by decide)) rfl (formatA_fields h)
  · exact answersFor_ok (unlisted h (by decide)) rfl (formatA_fields h)
  · exact answersFor_ok (unlisted h (by decide)) rfl (formatXB_fields h (toNat_byte1 w).symm)
  · exact answersFor_ok (unlisted h (by decide)) rfl (formatXB_fields h (toNat_byte1 w).symm)
  · exact pairs h (by decide) rfl rfl
  · exact answersFor_ok (unlisted h (by decide)) rfl (formatXB_fields h (toNat_byte1 w).symm)
  · exact answersFor_ok (unlisted h (by decide)) rfl (formatXB_fields h (toNat_byte1 w).symm)
  · exact answersFor_decodeOp8 h
  · exact pairs h (by decide) rfl rfl
  · exact answersFor_ok (unlisted h (by decide)) rfl (formatA_fields h)
  · exact answersFor_ok (unlisted h (by decide)) rfl (formatA_fields h)
  · exact answersFor_ok (unlisted h (by decide)) rfl (formatXB_fields h (toNat_byte1 w).symm)
  · refine answersFor_ite (fun hn => ?_) fun hn => ?_
    · rw [op4_eq_iff] at hn
      exact answersFor_ok (unlisted h (by decide)) rfl (formatXY_fields h hn)
    · refine answersFor_ok (unlisted h (by decide)) ?_ (formatXY_fields h (toNat_op4 w).symm)
      simpa [Instr.wellFormed] using hn
  · exact answersFor_decodeOpE h
  · have := w.isLt
    simp only [imp_false, op1_eq_iff, BitVec.reduceToNat] at *
    exact answersFor_decodeOpF (by omega)

/-- Settles O2: a word that is read as `i` falls under the second of the decoder's two answers. -/
theorem encodeOfDecodedIsTheWord : Obligations.EncodeOfDecodedIsTheWord := by
  unfold Obligations.EncodeOfDecodedIsTheWord
  intro b0 b1 i h
  rw [decode] at h
  rcases answersFor_decodeWord (wordOf b0 b1) with ⟨-, hr⟩ | ⟨-, j, hr, wf, he⟩ <;> rw [hr] at h <;> cases h
  exact ⟨wf, he⟩

/-- Settles O3: the decoder's two answers are told apart by the list. -/
theorem invalidWordsAreThoseListed : Obligations.InvalidWordsAreThoseListed := by
  unfold Obligations.InvalidWordsAreThoseListed
  intro b0 b1
  rw [decode, ← toNat_wordOf]
  rcases answersFor_decodeWord (wordOf b0 b1) with ⟨hl, hr⟩ | ⟨hl, i, hr, -, -⟩
  · exact ⟨fun _ => by rw [hr, invalid, byte0_wordOf, byte1_wordOf], fun hn => absurd hl hn⟩
  · exact ⟨fun h => absurd h hl, fun _ => ⟨i, hr⟩⟩

/-- Settles O4: the decoder run on the eight words. -/
theorem patternWordsDecodeAsWritten : Obligations.PatternWordsDecodeAsWritten := by
  unfold Obligations.PatternWordsDecodeAsWritten
  decide +kernel

end Sys2Proof
end

section
/-! PROOFS. The instruction cycle, the host and the whole machine's rules (30_encoding R111 to R113, 60_exceptions R300 to
R315, 10_state R35 to R44). -/

namespace Sys2Proof.Machine

/-! ### Fetch, `advance` and `step`, branch by branch -/

theorem advance_of_fetch_error {s : State} {f : FaultKind} (h : s.status = .running) (hf : fetchInstr s = .error f) :
    advance s = raise f s := by
  simp only [advance, h, hf]

theorem advance_of_fetch_ok {s : State} {i : Instr} (h : s.status = .running) (hf : fetchInstr s = .ok i) :
    advance s = exec i s := by
  simp only [advance, h, hf]

theorem fetchInstr_of_fetchBytes_error {s : State} {f : FaultKind} (h : fetchBytes s = .error f) :
    fetchInstr s = .error f := by
  simp only [fetchInstr, h]

/-- The decoder's rejection becomes the fault of the fetch, with the address of the word (R105, R111). -/
theorem fetchInstr_of_invalid {s : State} {b0 b1 c0 c1 : Byte} (hb : fetchBytes s = .ok (b0, b1))
    (hd : decode b0 b1 = .error (.invalidOpcode c0 c1)) : fetchInstr s = .error (.invalidOpcode s.pc c0 c1) := by
  simp only [fetchInstr, hb, hd]

/-- The host's choice of Ticks is not part of what is fetched. -/
theorem fetchInstr_scheduleTicks (s : State) : fetchInstr (scheduleTicks s) = fetchInstr s := rfl

/-- Everything a step can do when it answers a next state: it is a Tick, or the fault of a fetch, or an instruction. -/
theorem step_cases {s t : State} (h : step s = .next t) :
    (∃ n, t = hostTick n s) ∨ (∃ f, raise f (scheduleTicks s) = .next t) ∨
      ∃ i, fetchInstr (scheduleTicks s) = .ok i ∧ exec i (scheduleTicks s) = .next t := by
  obtain ⟨-, ⟨n, -, ht⟩ | ⟨-, ha⟩⟩ := step_next h
  · exact .inl ⟨n, ht⟩
  · obtain ⟨-, ⟨f, -, hr⟩ | hi⟩ := advance_next ha
    · exact .inr (.inl ⟨f, hr⟩)
    · exact .inr (.inr hi)

section hostTickFields
variable (n : Nat) (s : State)

@[simp] theorem hostTick_pc : (hostTick n s).pc = s.pc := tick_pc _
@[simp] theorem hostTick_depth : (hostTick n s).depth = s.depth := tick_depth _
@[simp] theorem hostTick_stack : (hostTick n s).stack = s.stack := tick_stack _
@[simp] theorem hostTick_mem : (hostTick n s).mem = s.mem := tick_mem _
@[simp] theorem hostTick_superMode : (hostTick n s).superMode = s.superMode := tick_superMode _
@[simp] theorem hostTick_keyCodes : (hostTick n s).keyCodes = s.keyCodes := tick_keyCodes _
@[simp] theorem hostTick_status : (hostTick n s).status = s.status := tick_status _

end hostTickFields

/-! ### Memory -/

/-- What a step writes, it writes at 0x200 or above (R72): memory is as it was, or has cells placed there. -/
theorem step_mem_cases {s t : State} (h : step s = .next t) :
    ∃ cells : List Host.Cell, (∀ c ∈ cells, Config.progBase ≤ c.1) ∧ t.mem = Memory.writeCells s.mem cells := by
  have same (hm : t.mem = s.mem) :
      ∃ cells : List Host.Cell, (∀ c ∈ cells, Config.progBase ≤ c.1) ∧ t.mem = Memory.writeCells s.mem cells :=
    ⟨[], fun _ hc => absurd hc List.not_mem_nil, hm⟩
  obtain ⟨n, rfl⟩ | ⟨f, hr⟩ | ⟨i, -, he⟩ := step_cases h
  · exact same (hostTick_mem n s)
  · cases hr
    exact same rfl
  · obtain hm | ⟨-, cells, hc, hm⟩ := exec_mem_cases he
    · exact same hm
    · exact ⟨cells, hc, hm⟩

/-- Settles O53: a step places cells at 0x200 and above alone, and a write leaves every other address as it was. -/
theorem noStepWritesBelowTheProgram : Obligations.NoStepWritesBelowTheProgram := by
  unfold Obligations.NoStepWritesBelowTheProgram
  intro s t h a ha
  obtain ⟨cells, hc, hm⟩ := step_mem_cases h
  rw [hm]
  exact Memory.read_writeCells_of_notMem _ _ _ fun c hcm => by
    have := hc c hcm
    simp only [Config.progBase] at this
    omega

/-- Settles O54. -/
theorem onlyTwoInstructionsWriteMemory : Obligations.OnlyTwoInstructionsWriteMemory := by
  unfold Obligations.OnlyTwoInstructionsWriteMemory
  intro i s t h hB hV
  obtain hm | ⟨⟨x, hi | hi⟩, -⟩ := exec_mem_cases h
  · exact hm
  · exact absurd hi (hB x)
  · exact absurd hi (hV x)

/-- Settles O55. -/
theorem noStepWritesSuperMode : Obligations.NoStepWritesSuperMode := by
  unfold Obligations.NoStepWritesSuperMode
  intro s t h
  obtain ⟨n, rfl⟩ | ⟨f, hr⟩ | ⟨i, -, he⟩ := step_cases h
  · exact ⟨hostTick_superMode n s, hostTick_keyCodes n s⟩
  · cases hr
    exact ⟨rfl, rfl⟩
  · exact exec_parameters (s := scheduleTicks s) he

/-! ### The invariant -/

/-- The same entries, as many of them held or fewer: each is still one that a CALL pushed. -/
theorem State.StackOk.of_eq {s t : State} (h : s.StackOk) (hs : t.stack = s.stack) (hd : t.depth.val ≤ s.depth.val) :
    t.StackOk := by
  intro k hk
  rw [hs]
  exact h k (by omega)

/-- A CALL at a fetchable address pushes that address, so every held entry is still one (R131, R132). -/
theorem State.StackOk.push {s t : State} (h : s.StackOk) (hpc : s.pc.toNat ≤ 0xFFE) (heven : s.pc.toNat % 2 = 0)
    (room : s.depth.val < Config.stackDepth) (hs : t.stack = s.stack.set s.depth.val s.pc room)
    (hd : t.depth.val = s.depth.val + 1) : t.StackOk := by
  intro k hk
  rw [hs, Vector.getElem_set]
  split
  · exact ⟨hpc, heven⟩
  · exact h k (by omega)

/-- An instruction fetched from an even address in range keeps the invariant. -/
theorem exec_keeps_inv {i : Instr} {s t : State} (h : s.Inv) (hpc : s.pc.toNat ≤ 0xFFE) (heven : s.pc.toNat % 2 = 0)
    (he : exec i s = .next t) : t.Inv := by
  obtain ⟨hmem, -, hstack⟩ := h
  have mem : Memory.wf t.mem = true := by
    obtain hm | ⟨-, cells, -, hm⟩ := exec_mem_cases he
    · rwa [hm]
    · rw [hm]
      exact Memory.wf_writeCells cells hmem
  refine ⟨mem, ?_⟩
  obtain ⟨hs, hd, hp⟩ | ⟨-, hp, room, hs, hd⟩ | ⟨-, hs, k, hk, hd, hp⟩ := exec_control_cases he
  · refine ⟨?_, hstack.of_eq hs (by rw [hd])⟩
    obtain hp | hp | hp | hp := hp
    · rw [hp]
      omega
    · rw [hp]
      bv_omega
    · rw [hp]
      bv_omega
    · exact hp
  · exact ⟨by omega, hstack.push hpc heven room hs hd⟩
  · refine ⟨?_, hstack.of_eq hs (by omega)⟩
    have := (hstack k (by omega)).1
    rw [hp]
    bv_omega

/-- Settles O16: a Tick and a fault touch nothing of the invariant, and an instruction runs at an address that passed the
fetch check, which is what CALL pushes. -/
theorem stepKeepsTheInvariant : Obligations.StepKeepsTheInvariant := by
  unfold Obligations.StepKeepsTheInvariant
  intro s t inv h
  obtain ⟨n, rfl⟩ | ⟨f, hr⟩ | ⟨i, hf, he⟩ := step_cases h
  · obtain ⟨hmem, hpc, hstack⟩ := inv
    exact ⟨by rwa [hostTick_mem], by rwa [hostTick_pc],
      hstack.of_eq (hostTick_stack n s) (by rw [hostTick_depth])⟩
  · cases hr
    exact inv
  · obtain ⟨hpc, heven, -⟩ := fetchInstr_ok hf
    exact exec_keeps_inv (s := scheduleTicks s) inv hpc heven he

/-- Settles O15. -/
theorem resetMeetsTheInvariant : Obligations.ResetMeetsTheInvariant := by
  unfold Obligations.ResetMeetsTheInvariant
  exact ⟨wf_reset, by decide, fun k hk => absurd hk (Nat.not_lt_zero _)⟩

/-! ### Outcomes -/

/-- A checked store answers a next state either way (R72, R302). -/
theorem storeOrRaise_next (cells : List Host.Cell) (after s : State) : ∃ t, storeOrRaise cells after s = .next t := by
  obtain ⟨c, -, -, he⟩ | ⟨-, he⟩ := storeOrRaise_cases cells after s
  · exact ⟨_, he⟩
  · exact ⟨_, he⟩

/-- Settles O8: an arm ends in `finish`, `jumpTo`, `halt` or `raise`, each a next state; the arms with a check do so on
both of its sides. -/
theorem everyInstructionAnswersANextState : Obligations.EveryInstructionAnswersANextState := by
  unfold Obligations.EveryInstructionAnswersANextState
  intro i s
  cases i
  case call nnn =>
    simp only [exec, execCall]
    obtain ⟨_, hp⟩ | ⟨-, hp⟩ := push_cases s.pc s <;> rw [hp] <;> exact ⟨_, rfl⟩
  case ret =>
    simp only [exec, execRet]
    obtain ⟨k, d, -, -, hp⟩ | ⟨-, hp⟩ := pop_cases s <;> rw [hp] <;> exact ⟨_, rfl⟩
  case scd n => simp only [exec, execScd]; split <;> exact ⟨_, rfl⟩
  case drw16 x y => simp only [exec, execDrw16]; split <;> exact ⟨_, rfl⟩
  case ldHf x => simp only [exec, execLdHf]; split <;> exact ⟨_, rfl⟩
  case ldRV x => simp only [exec, execLdRV]; split <;> exact ⟨_, rfl⟩
  case ldVR x => simp only [exec, execLdVR]; split <;> exact ⟨_, rfl⟩
  case ldB x => exact storeOrRaise_next _ _ _
  case ldMemV x => exact storeOrRaise_next _ _ _
  all_goals exact ⟨_, rfl⟩

/-- An `advance` that ends in the fault `f` changed `status` and the outcome alone (R301, D23). -/
theorem advance_faulted {s t : State} {f : FaultKind} (h : advance s = .next t) (hf : t.status = .faulted f) :
    t = { s with status := .faulted f, lastResult := some (.faulted f) } := by
  obtain ⟨hrun, ⟨g, -, hr⟩ | ⟨i, -, he⟩⟩ := advance_next h
  · cases hr
    cases hf
    rfl
  · obtain ⟨-, rfl⟩ | ⟨g, rfl⟩ | hs := exec_status_cases he
    · cases hf
    · cases hf
      rfl
    · rw [hs, hrun] at hf
      cases hf

/-- An `advance` that halts ran 00FD, and changed `status` and the outcome alone (R134, D26). -/
theorem advance_halted {s t : State} (h : advance s = .next t) (hh : t.status = .halted) :
    fetchInstr s = .ok .exit ∧ t = { s with status := .halted, lastResult := some .halted } := by
  obtain ⟨hrun, ⟨g, -, hr⟩ | ⟨i, hi, he⟩⟩ := advance_next h
  · cases hr
    cases hh
  · obtain ⟨rfl, ht⟩ | ⟨g, rfl⟩ | hs := exec_status_cases he
    · exact ⟨hi, ht⟩
    · cases hh
    · rw [hs, hrun] at hh
      cases hh

/-- A step that leaves the machine stopped is an `advance`, since a Tick leaves `status` as it was (R309). -/
theorem advance_of_step_stopped {s t : State} (h : step s = .next t) (ht : t.status ≠ .running) :
    advance (scheduleTicks s) = .next t := by
  obtain ⟨hrun, ⟨n, -, rfl⟩ | ⟨-, ha⟩⟩ := step_next h
  · rw [hostTick_status] at ht
    exact absurd hrun ht
  · exact ha

/-- Settles O9. -/
theorem faultLeavesEverythingElse : Obligations.FaultLeavesEverythingElse := by
  unfold Obligations.FaultLeavesEverythingElse
  intro s t f hf
  refine ⟨fun h => advance_faulted h hf, fun h => ?_⟩
  rw [advance_faulted (advance_of_step_stopped h (by rw [hf]; exact Status.noConfusion)) hf]
  rfl

/-- Settles O10. -/
theorem onlyExitHaltsTheMachine : Obligations.OnlyExitHaltsTheMachine := by
  unfold Obligations.OnlyExitHaltsTheMachine
  intro s t h hh
  obtain ⟨hf, rfl⟩ := advance_halted (advance_of_step_stopped h (by rw [hh]; exact Status.noConfusion)) hh
  exact ⟨hf, rfl⟩

/-- Settles O5. -/
theorem stepRunsTheDecodedInstruction : Obligations.StepRunsTheDecodedInstruction := by
  unfold Obligations.StepRunsTheDecodedInstruction
  intro s hrun
  refine ⟨fun hd => step_of_none_due hrun hd, fun i hd hpc heven hdec => ?_, fun n hd => step_of_due hrun hd⟩
  rw [step_of_none_due hrun hd]
  exact advance_of_fetch_ok (s := scheduleTicks s) hrun (fetchInstr_of_decode hpc heven hdec)

/-- Settles O7. -/
theorem stoppedMachineHasNoStep : Obligations.StoppedMachineHasNoStep := by
  unfold Obligations.StoppedMachineHasNoStep
  intro s
  constructor
  · intro h
    simp only [step, advance, h]
  · intro f h
    simp only [step, advance, h]

/-- Settles O6: the three cases of the fetch, the last with a word that the decoder rejects by the list (O3). -/
theorem fetchFaultsComeInOrder : Obligations.FetchFaultsComeInOrder := by
  unfold Obligations.FetchFaultsComeInOrder
  intro s hrun
  refine ⟨fun hpc => ?_, fun hpc hodd => ?_, fun hpc heven hl => ?_⟩
  · refine advance_of_fetch_error hrun (fetchInstr_of_fetchBytes_error ?_)
    rw [fetchBytes, if_pos hpc]
  · refine advance_of_fetch_error hrun (fetchInstr_of_fetchBytes_error ?_)
    rw [fetchBytes, if_neg (by omega), if_pos hodd]
  · refine advance_of_fetch_error hrun (fetchInstr_of_invalid ?_ ((invalidWordsAreThoseListed _ _).1 hl))
    rw [fetchBytes, if_neg (by omega), if_neg (by omega)]

/-! ### The timers -/

/-- A timer counts down by 1 and stays at 0 (R309). -/
theorem toNat_tickTimer (t : Byte) : (tickTimer t).toNat = t.toNat - 1 := by
  unfold tickTimer
  split
  · subst t
    rfl
  · rename_i h
    have : t.toNat ≠ 0 := fun h0 => h (BitVec.eq_of_toNat_eq h0)
    rw [BitVec.toNat_sub_of_le]
    · rfl
    · rw [BitVec.le_def]
      exact Nat.one_le_iff_ne_zero.mpr this

/-- Settles O11. -/
theorem tickCountsTheTimersDown : Obligations.TickCountsTheTimersDown := by
  unfold Obligations.TickCountsTheTimersDown
  intro s
  have one : s.sound.toNat = 1 ↔ s.sound = 1 := by rw [← BitVec.toNat_inj]; rfl
  constructor
  · intro hrun
    refine ⟨?_, ?_, fun h => ?_, fun h => ?_, tick_frame s⟩ <;> rw [tick_of_running hrun]
    · exact toNat_tickTimer s.delay
    · exact toNat_tickTimer s.sound
    · exact if_pos (one.mp h)
    · exact if_neg (mt one.mpr h)
  · intro hstop
    unfold tick
    split
    · exact absurd ‹_› hstop
    · rfl
    · rfl

end Sys2Proof.Machine
end

section
/-! PROOFS. Reset and load (10_state R49, 70_reset_and_hazards R340 to R342). -/

namespace Sys2Proof.Machine

/-- Outside the two default fonts a byte that nothing wrote reads as 0 (D14). -/
theorem initialByte_eq_zero {a : Nat} (h : (0x50 ≤ a ∧ a ≤ 0x7F) ∨ 0xE4 ≤ a) : initialByte a = 0 := by
  have hex : Config.hexFont.length = 80 := rfl
  have large : Config.largeFont.length = 100 := rfl
  simp only [initialByte, hex, large, Config.hexFontBase, Config.largeFontBase]
  rw [if_neg (by omega), if_neg (by omega)]

/-- Settles O12. -/
theorem resetValuesOfTheSource : Obligations.ResetValuesOfTheSource := by
  unfold Obligations.ResetValuesOfTheSource
  exact ⟨by decide, rfl, rfl, rfl⟩

/-- Settles O13: reset memory lists nothing, so each byte reads as its initial value. -/
theorem resetValuesTheSpecDecides : Obligations.ResetValuesTheSpecDecides := by
  unfold Obligations.ResetValuesTheSpecDecides
  refine ⟨rfl, rfl, rfl, by decide, by decide, pixelAt_blankScreen, rfl, by decide +kernel, by decide +kernel,
    by decide +kernel, fun a h => initialByte_eq_zero h⟩

section loaded
variable {program : List Byte} (hexFont : HexFont) (largeFont : LargeFont)

/-- What memory holds after the two fonts and the program are placed (R340, R342). -/
abbrev loadedMemory (program : List Byte) (hexFont : HexFont) (largeFont : LargeFont) : Memory :=
  Memory.writeCells [] (loadCells program hexFont largeFont)

theorem wf_loadedMemory : Memory.wf (loadedMemory program hexFont largeFont) = true := Memory.wf_writeCells _ rfl

/-- A cell that `init` places reads back: no two have one address, and all lie in memory. -/
theorem read_loadedMemory {c : Host.Cell} (fits : program.length ≤ Config.maxProgram)
    (hc : c ∈ loadCells program hexFont largeFont) : Memory.read (loadedMemory program hexFont largeFont) c.1 = c.2 :=
  Memory.read_writeCells_of_mem rfl (nodup_loadCells program hexFont largeFont) (loadCells_lt hexFont largeFont fits) hc

/-- An address outside both fonts and the program reads as 0 (D14). -/
theorem read_loadedMemory_outside {a : Nat}
    (ha : (0x50 ≤ a ∧ a ≤ 0x7F) ∨ (0xE4 ≤ a ∧ a ≤ 0x1FF) ∨ 0x200 + program.length ≤ a) :
    Memory.read (loadedMemory program hexFont largeFont) a = 0 := by
  rw [loadedMemory, Memory.read_writeCells_of_notMem _ _ a, Memory.read_nil, initialByte_eq_zero (by omega)]
  intro c hc hca
  have hm : a ∈ (loadCells program hexFont largeFont).map Prod.fst := hca ▸ List.mem_map_of_mem hc
  simp only [loadCells, List.map_append, addresses_cellsFrom, Vector.length_toList, List.mem_append,
    List.mem_range'_1, Config.progBase, Config.hexFontBase, Config.largeFontBase] at hm
  omega

end loaded

/-- A byte of a font or of the program is a cell that `init` places (R340). -/
theorem mem_loadCells {program : List Byte} {hexFont : HexFont} {largeFont : LargeFont} {c : Host.Cell} :
    c ∈ loadCells program hexFont largeFont ↔
      (∃ k, hexFont.toList[k]? = some c.2 ∧ c.1 = 0x000 + k) ∨ (∃ k, largeFont.toList[k]? = some c.2 ∧ c.1 = 0x080 + k) ∨
      ∃ k, program[k]? = some c.2 ∧ c.1 = 0x200 + k := by
  simp only [loadCells, List.mem_append, mem_cellsFrom, Config.progBase, Config.hexFontBase, Config.largeFontBase,
    or_assoc]

theorem load_of_fits {program : List Byte} (superMode : Bool) (hexFont : HexFont) (largeFont : LargeFont)
    (keyCodes : List Byte) (h : program.length ≤ Config.maxProgram) :
    load program superMode hexFont largeFont keyCodes = .next { State.reset with
      mem := loadedMemory program hexFont largeFont, superMode := superMode, keyCodes := keyCodes } := by
  rw [load, if_neg (Nat.not_lt.mpr h)]

/-- Settles O14: every cell placed reads back, every other address was never written, and the default fonts list
nothing. -/
theorem loadPlacesTheProgram : Obligations.LoadPlacesTheProgram := by
  unfold Obligations.LoadPlacesTheProgram
  refine ⟨fun program superMode hexFont largeFont keyCodes => ⟨fun fits => ?_, fun long => ?_⟩, ?_⟩
  · refine ⟨_, load_of_fits superMode hexFont largeFont keyCodes fits, fun k => ?_, fun k => ?_, fun k b hk => ?_,
      fun a ha => read_loadedMemory_outside hexFont largeFont ha, wf_loadedMemory hexFont largeFont, rfl⟩
    · exact read_loadedMemory hexFont largeFont (c := (k.val, hexFont[k.val])) fits
        (mem_loadCells.mpr (.inl ⟨k.val, by simp, (Nat.zero_add _).symm⟩))
    · exact read_loadedMemory hexFont largeFont (c := (0x080 + k.val, largeFont[k.val])) fits
        (mem_loadCells.mpr (.inr (.inl ⟨k.val, by simp, rfl⟩)))
    · exact read_loadedMemory hexFont largeFont (c := (0x200 + k, b)) fits
        (mem_loadCells.mpr (.inr (.inr ⟨k, hk, rfl⟩)))
  · exact if_pos long
  · rw [load_of_fits false _ _ _ (Nat.zero_le _), loadedMemory, writeCells_default_fonts]
    rfl

end Sys2Proof.Machine
end

section
/-! PROOFS. Control flow and conditional skips (40_control_flow R130 to R136, 41_conditional_skip R150 to R157). -/

namespace Sys2Proof.Machine

/-- `nnn + V[0]` is at most 0x10FE, so the target of JP V0 does not wrap as a word (R133). -/
theorem toNat_jpV0_target (nnn : Addr12) (b : Byte) : (zext16 nnn + zext16 b).toNat = nnn.toNat + b.toNat := by
  have hb : (zext16 b).toNat = b.toNat := BitVec.toNat_setWidth_of_le (by decide)
  have := nnn.isLt
  have := b.isLt
  rw [BitVec.toNat_add, toNat_zext16_addr, hb]
  omega

/-- Settles O17. -/
theorem jumpsSetThePc : Obligations.JumpsSetThePc := by
  unfold Obligations.JumpsSetThePc
  intro nnn s
  exact ⟨⟨_, rfl, toNat_zext16_addr nnn, rfl⟩, ⟨_, rfl, toNat_jpV0_target nnn (s.getV 0), rfl⟩⟩

/-- RET with entries held: 2 past the top one, the cursor one down (R132). -/
theorem exec_ret_of_entry {s : State} {k : Fin 16} (h : s.depth.val = k.val + 1) :
    exec .ret s = .next { s with
      pc := s.stack[k.val] + 2, depth := k.castSucc, lastResult := some .continued } := by
  obtain ⟨j, d, hj, hd, hp⟩ | ⟨h0, -⟩ := pop_cases s
  · obtain rfl : j = k := Fin.ext (by omega)
    obtain rfl : d = j.castSucc := Fin.ext hd
    simp only [exec, execRet, hp, jumpTo]
  · omega

/-- RET on an empty stack raises `StackUnderflow` at its own address (R37, R132). -/
theorem exec_ret_of_empty {s : State} (h : s.depth.val = 0) : exec .ret s = raise (.stackUnderflow s.pc) s := by
  obtain ⟨j, d, hj, -, -⟩ | ⟨-, hp⟩ := pop_cases s
  · omega
  · simp only [exec, execRet, hp]

/-- Settles O19: a held entry of a stack that meets the invariant is at most 0xFFE, so 2 past it is at most 0x1000. -/
theorem returnGoesPastTheCall : Obligations.ReturnGoesPastTheCall := by
  unfold Obligations.ReturnGoesPastTheCall
  intro s
  constructor
  · intro k hk
    have held : s.depth.val = k.val + 1 := by simp only [State.sc] at hk; omega
    refine ⟨_, exec_ret_of_entry held, rfl, ?_, fun ok => ?_, rfl⟩
    · simp only [State.sc, Fin.val_castSucc]
      omega
    · have := (ok k (by omega)).1
      have sum : (s.stack[k.val] + 2).toNat = s.stack[k.val].toNat + 2 := by bv_omega
      exact ⟨sum, by simp only [sum]; omega⟩
  · intro hsc
    exact exec_ret_of_empty (by simp only [State.sc] at hsc; omega)

/-- Settles O20: the RET pops the entry at the cursor, which is where the CALL pushed its own address. -/
theorem callThenReturnComesBack : Obligations.CallThenReturnComesBack := by
  unfold Obligations.CallThenReturnComesBack
  intro nnn s hsc
  have room := (sc_lt_iff_room s).mp hsc
  refine ⟨_, _, exec_call_of_room nnn s room, exec_ret_of_entry (k := ⟨s.depth.val, room⟩) rfl, ?_, rfl⟩
  simp only [Vector.getElem_set_self]

/-- Settles O21. -/
theorem exitHaltsInPlace : Obligations.ExitHaltsInPlace := by
  unfold Obligations.ExitHaltsInPlace
  intro s
  rfl

/-- Settles O22: a skip either way is `skipIf_eq`, here on the comparison with a byte. -/
theorem skipsAgainstAByte : Obligations.SkipsAgainstAByte := by
  unfold Obligations.SkipsAgainstAByte
  intro x nn s
  constructor
  · simp only [exec, execSeImm, skipIf_eq, decide_eq_true_eq]
  · simp only [exec, execSneImm, skipIf_eq, decide_eq_true_eq, ne_eq, ite_not]

/-- Settles O23: as O22, on the comparison of two registers. -/
theorem skipsBetweenRegisters : Obligations.SkipsBetweenRegisters := by
  unfold Obligations.SkipsBetweenRegisters
  intro x y s
  constructor
  · simp only [exec, execSeReg, skipIf_eq, decide_eq_true_eq]
  · simp only [exec, execSneReg, skipIf_eq, decide_eq_true_eq, ne_eq, ite_not]

/-- Settles O24: as O22, on the host's answer, whatever it is. -/
theorem skipsOnAKey : Obligations.SkipsOnAKey := by
  unfold Obligations.SkipsOnAKey
  intro x s
  constructor
  · simp only [exec, execSkp, skipIf_eq]
    rfl
  · simp only [exec, execSknp, skipIf_eq, State.keyPressed]
    cases Config.keyPressed s.inputs (s.getV x) <;> rfl

end Sys2Proof.Machine
end

section
/-! PROOFS. Loads, logic, timers, random and keys: one register or one timer written, the rest as it was. -/

namespace Sys2Proof.Machine

/-- What an instruction that ends with one register written leaves: that register, the others, and everything else. -/
theorem completed_setV_frame (s : State) (x : Reg) (b : Byte) :
    (completed (s.setV x b)).getV x = b ∧ (∀ r, r ≠ x → (completed (s.setV x b)).getV r = s.getV r) ∧
    completed (s.setV x b) =
      { s with v := (completed (s.setV x b)).v, pc := s.pc + 2, lastResult := some .continued } := by
  refine ⟨?_, fun r hr => ?_, rfl⟩
  · rw [completed_getV, State.getV_setV, if_pos rfl]
  · rw [completed_getV, State.getV_setV, if_neg hr.symm]

/-- Settles O25. -/
theorem registerLoadsWriteTheirTarget : Obligations.RegisterLoadsWriteTheirTarget := by
  unfold Obligations.RegisterLoadsWriteTheirTarget
  intro x y nn s
  exact ⟨⟨_, rfl, completed_setV_frame s x nn⟩, ⟨_, rfl, completed_setV_frame s x (s.getV y)⟩⟩

/-- Settles O26. -/
theorem addImmediateWritesNoFlag : Obligations.AddImmediateWritesNoFlag := by
  unfold Obligations.AddImmediateWritesNoFlag
  intro x nn s
  obtain ⟨hx, others, frame⟩ := completed_setV_frame s x (s.getV x + nn)
  exact ⟨_, rfl, by rw [hx, BitVec.toNat_add], others, frame⟩

/-- Settles O27. -/
theorem logicIsBitwiseWithoutFlag : Obligations.LogicIsBitwiseWithoutFlag := by
  unfold Obligations.LogicIsBitwiseWithoutFlag
  intro x y s
  refine ⟨?_, ?_, ?_⟩
  · obtain ⟨hx, others, frame⟩ := completed_setV_frame s x (s.getV x ||| s.getV y)
    exact ⟨_, rfl, fun k => by rw [hx, BitVec.getLsbD_or], others, frame⟩
  · obtain ⟨hx, others, frame⟩ := completed_setV_frame s x (s.getV x &&& s.getV y)
    exact ⟨_, rfl, fun k => by rw [hx, BitVec.getLsbD_and], others, frame⟩
  · obtain ⟨hx, others, frame⟩ := completed_setV_frame s x (s.getV x ^^^ s.getV y)
    exact ⟨_, rfl, fun k => by rw [hx, BitVec.getLsbD_xor], others, frame⟩

/-- Settles O41. -/
theorem delayTimerCopies : Obligations.DelayTimerCopies := by
  unfold Obligations.DelayTimerCopies
  intro x s
  exact ⟨⟨_, rfl, completed_setV_frame s x s.delay⟩, ⟨_, rfl, rfl, rfl⟩⟩

/-- A byte is not 0 exactly when its number is not. -/
theorem byte_bne_zero (b : Byte) : (b != 0) = decide (b.toNat ≠ 0) := by
  rw [Bool.eq_iff_iff, bne_iff_ne, decide_eq_true_eq, not_iff_not, ← BitVec.toNat_inj]
  rfl

/-- Settles O42. -/
theorem soundTimerSetEmitsOneEvent : Obligations.SoundTimerSetEmitsOneEvent := by
  unfold Obligations.SoundTimerSetEmitsOneEvent
  intro x s
  refine ⟨_, rfl, rfl, ?_, rfl⟩
  simp only [completed_events, emit_events, completed_sound, emit_sound, byte_bne_zero]

/-- Settles O43: what is under the mask has no bit outside it. -/
theorem randomByteIsMasked : Obligations.RandomByteIsMasked := by
  unfold Obligations.RandomByteIsMasked
  intro x nn s
  obtain ⟨hx, others, frame⟩ := completed_setV_frame s.takeInput x (s.randomByte &&& nn)
  refine ⟨_, rfl, hx, ?_, others, frame⟩
  rw [hx, BitVec.and_assoc, BitVec.and_not_self]
  exact BitVec.and_zero

/-- Settles O44: the two cases of the host's answer. -/
theorem keyWaitHoldsOrTakesAKey : Obligations.KeyWaitHoldsOrTakesAKey := by
  unfold Obligations.KeyWaitHoldsOrTakesAKey
  intro x s
  cases hk : s.waitKey with
  | none =>
    refine ⟨holding s.takeInput, ?_, .inl ⟨rfl, rfl⟩⟩
    simp only [exec, execLdVxK, hk]
  | some k =>
    refine ⟨completed (s.takeInput.setV x k), ?_, .inr ⟨k, waitKey_mem hk, rfl, completed_setV_frame s.takeInput x k⟩⟩
    simp only [exec, execLdVxK, hk]

end Sys2Proof.Machine
end

section
/-! PROOFS. Memory transfer (43_memory_transfer R200 to R209): `I`, and the checked stores and the block loops. -/

namespace Sys2Proof.Machine

/-! ### The address register -/

/-- Settles O32. -/
theorem addressRegisterLoadsAndAdds : Obligations.AddressRegisterLoadsAndAdds := by
  unfold Obligations.AddressRegisterLoadsAndAdds
  intro nnn x s
  refine ⟨⟨_, rfl, toNat_zext16_addr nnn, rfl⟩, ⟨_, rfl, ?_, rfl⟩⟩
  have byte : (zext16 (s.getV x)).toNat = (s.getV x).toNat := BitVec.toNat_setWidth_of_le (by decide)
  rw [completed_i, BitVec.toNat_add, byte]

/-- Settles O34: the glyphs of the ten digits end at 0x0E3, so no address wraps as a word. -/
theorem largeGlyphAddressOrFault : Obligations.LargeGlyphAddressOrFault := by
  unfold Obligations.LargeGlyphAddressOrFault
  intro x s
  simp only [exec, execLdHf]
  constructor
  · intro digit
    rw [if_neg (by omega)]
    refine ⟨_, rfl, ?_, rfl⟩
    rw [completed_i, largeGlyph, BitVec.toNat_ofNat, Config.largeFontBase]
    omega
  · intro large
    rw [if_pos large, raise_eq]

/-- `I` after Fx55 and Fx65 (R205, R206): as it was in superMode, else `x` on. -/
theorem blockAdvancedI_cases (s : State) (x : Reg) :
    (s.superMode = true → blockAdvancedI s x = s.i) ∧
    (s.superMode = false → (blockAdvancedI s x).toNat = (s.i.toNat + x.val) % 65536) := by
  constructor <;> intro h <;> simp only [blockAdvancedI, h, if_true, Bool.false_eq_true, if_false]
  have := x.isLt
  rw [BitVec.toNat_add, BitVec.toNat_ofNat, Nat.add_mod_mod]

/-! ### Checked stores -/

/-- The addresses of Fx33, in its order (R204). -/
theorem addresses_decimalCells (s : State) (b : Byte) : (decimalCells s b).map Prod.fst = (List.range 3).map (ea s) := rfl

/-- The addresses of Fx55, in its order (R205). -/
theorem addresses_blockCells (s : State) (x : Reg) :
    (blockCells s x).map Prod.fst = (List.range (x.val + 1)).map (ea s) := by
  have numbers : (blockRegs x).map Fin.val = List.range (x.val + 1) := by
    revert x
    decide
  rw [← numbers, blockCells, List.map_map, List.map_map]
  rfl

/-- A checked store over `EA(0)` to `EA(n - 1)` whose first reserved target is `EA(k)` raises with that one (R72, R302). -/
theorem storeOrRaise_of_first {cells : List Host.Cell} (after : State) {s : State} {n k : Nat}
    (addresses : cells.map Prod.fst = (List.range n).map (ea s)) (hk : k < n) (reserved : ea s k < 0x200)
    (first : ∀ j < k, 0x200 ≤ ea s j) :
    storeOrRaise cells after s = raise (.reservedMemoryWrite s.pc (ea s k)) s := by
  have found : (List.range n).find? (fun j => decide (ea s j < 0x200)) = some k := by
    rw [List.find?_range_eq_some]
    refine ⟨by simpa using reserved, by simpa using hk, fun j hj => ?_⟩
    have := first j hj
    simpa using this
  have hfst : (cells.find? (fun c => decide (c.1 < Config.progBase))).map Prod.fst = some (ea s k) := by
    calc (cells.find? (fun c => decide (c.1 < Config.progBase))).map Prod.fst
        = (cells.map Prod.fst).find? (fun a => decide (a < Config.progBase)) := by rw [List.find?_map]; rfl
      _ = ((List.range n).find? (fun j => decide (ea s j < 0x200))).map (ea s) := by
          rw [addresses, List.find?_map]; rfl
      _ = some (ea s k) := by rw [found]; rfl
  obtain ⟨c, hc, hck⟩ := Option.map_eq_some_iff.mp hfst
  simp only [storeOrRaise, hc, hck]

/-- Settles O37: both stores check their targets in the order of the addresses. -/
theorem storesBelowTheProgramFault : Obligations.StoresBelowTheProgramFault := by
  unfold Obligations.StoresBelowTheProgramFault
  intro x s k reserved first
  exact ⟨fun hk => storeOrRaise_of_first s (addresses_decimalCells s _) hk reserved first,
    fun hk => storeOrRaise_of_first _ (addresses_blockCells s x) (by omega) reserved first⟩

/-- Settles O35: the three cells have different addresses, so each reads back; the three digits are below 256. -/
theorem decimalStoreWritesThreeDigits : Obligations.DecimalStoreWritesThreeDigits := by
  unfold Obligations.DecimalStoreWritesThreeDigits
  intro x s writable
  have hb := (s.getV x).isLt
  have targets : ∀ c ∈ decimalCells s (s.getV x), Config.progBase ≤ c.1 := by
    simp only [decimalCells, List.forall_mem_cons]
    exact ⟨writable 0 (by decide), writable 1 (by decide), writable 2 (by decide), fun _ h => absurd h List.not_mem_nil⟩
  refine ⟨_, storeOrRaise_of_writable s s targets, fun wf => ?_, fun a h0 h1 h2 => ?_, rfl⟩
  · have inMemory : ∀ c ∈ decimalCells s (s.getV x), c.1 < Config.memSize := by
      simp only [decimalCells, List.forall_mem_cons]
      exact ⟨ea_lt s 0, ea_lt s 1, ea_lt s 2, fun _ h => absurd h List.not_mem_nil⟩
    have back {a d : Nat} (hc : (a, BitVec.ofNat 8 d) ∈ decimalCells s (s.getV x)) (hd : d < 256) :
        (Memory.read (Memory.writeCells s.mem (decimalCells s (s.getV x))) a).toNat = d := by
      rw [Memory.read_writeCells_of_mem wf (nodup_decimalCells s _) inMemory hc, BitVec.toNat_ofNat, Nat.mod_eq_of_lt hd]
    exact ⟨back (.head _) (by omega), back (.tail _ (.head _)) (by omega),
      back (.tail _ (.tail _ (.head _))) (by omega)⟩
  · refine Memory.read_writeCells_of_notMem _ _ _ ?_
    simp only [decimalCells, List.forall_mem_cons]
    exact ⟨h0.symm, h1.symm, h2.symm, fun _ h => absurd h List.not_mem_nil⟩

/-- Settles O36: the cells of the block have different addresses, so each reads back. -/
theorem blockStoreWritesTheRegisters : Obligations.BlockStoreWritesTheRegisters := by
  unfold Obligations.BlockStoreWritesTheRegisters
  intro x s writable
  have targets : ∀ c ∈ blockCells s x, Config.progBase ≤ c.1 := by
    intro c hc
    obtain ⟨r, hr, rfl⟩ := mem_blockCells.mp hc
    exact writable r.val hr
  obtain ⟨super, plain⟩ := blockAdvancedI_cases s x
  refine ⟨_, storeOrRaise_of_writable _ s targets, fun wf r hr => ?_, fun a ha => ?_, super, plain, rfl⟩
  · refine Memory.read_writeCells_of_mem (c := (ea s r.val, s.getV r)) wf (nodup_blockCells s x) (fun c hc => ?_)
      (mem_blockCells.mpr ⟨r, hr, rfl⟩)
    obtain ⟨q, -, rfl⟩ := mem_blockCells.mp hc
    exact ea_lt s q.val
  · refine Memory.read_writeCells_of_notMem _ _ _ fun c hc => ?_
    obtain ⟨r, hr, rfl⟩ := mem_blockCells.mp hc
    exact (ha r.val hr).symm

/-! ### Block loads and the flag registers -/

/-- Fx65 in one state update: the registers of the loop, then `I` (R206). -/
theorem exec_ldVMem (x : Reg) (s : State) : exec (.ldVMem x) s = .next { s with
    v := (loadBlock s x).v, i := blockAdvancedI s x, pc := s.pc + 2, lastResult := some .continued } := by
  simp only [exec, execLdVMem]
  rw [loadBlock_eq]
  rfl

/-- Settles O38. -/
theorem blockLoadReadsTheRegisters : Obligations.BlockLoadReadsTheRegisters := by
  unfold Obligations.BlockLoadReadsTheRegisters
  intro x s
  obtain ⟨super, plain⟩ := blockAdvancedI_cases s x
  refine ⟨_, exec_ldVMem x s, fun r hr => ?_, fun r hr => ?_, super, plain, rfl⟩
  · exact (loadBlock_getV s x r).trans (if_pos hr)
  · exact (loadBlock_getV s x r).trans (if_neg (by omega))

/-- Settles O39. -/
theorem flagRegistersSaveOrFault : Obligations.FlagRegistersSaveOrFault := by
  unfold Obligations.FlagRegistersSaveOrFault
  intro x s
  simp only [exec, execLdRV]
  constructor
  · intro hx
    rw [if_neg (by omega)]
    refine ⟨_, rfl, fun k hk => ?_, fun k hk => ?_, ?_⟩
    · rw [completed_getFR, saveFlagBlock_getFR, if_pos hk]
    · rw [completed_getFR, saveFlagBlock_getFR, if_neg (by omega)]
    · rw [saveFlagBlock_eq]
      rfl
  · intro hx
    rw [if_pos hx, raise_eq]

/-- Settles O40. -/
theorem flagRegistersRestoreOrFault : Obligations.FlagRegistersRestoreOrFault := by
  unfold Obligations.FlagRegistersRestoreOrFault
  intro x s
  simp only [exec, execLdVR]
  constructor
  · intro hx
    rw [if_neg (by omega)]
    refine ⟨_, rfl, fun k hk => ?_, fun r hr => ?_, ?_⟩
    · exact (restoreFlagBlock_getV s x _ hx).trans (dif_pos hk)
    · exact (restoreFlagBlock_getV s x r hx).trans (dif_neg (by omega))
    · rw [restoreFlagBlock_eq]
      rfl
  · intro hx
    rw [if_pos hx, raise_eq]

end Sys2Proof.Machine
end

section
/-! PROOFS. Display (46_display R260 to R272): clearing, scrolling, and the pixels of a draw. -/

namespace Sys2Proof.Machine

/-- Settles O45. -/
theorem clearBlanksEveryPixel : Obligations.ClearBlanksEveryPixel := by
  unfold Obligations.ClearBlanksEveryPixel
  intro s
  exact ⟨_, rfl, pixelAt_blankScreen, rfl⟩

/-- Settles O48. -/
theorem resolutionIsSelected : Obligations.ResolutionIsSelected := by
  unfold Obligations.ResolutionIsSelected
  intro s
  exact ⟨rfl, rfl⟩

/-! ### The two display instructions with a condition -/

theorem exec_scd_of_odd {n : Nibble} {s : State} (h : s.largeScreen = false ∧ n.toNat % 2 = 1) :
    exec (.scd n) s = raise (.invalidScroll s.pc n) s := if_pos h

theorem exec_scd_of_even {n : Nibble} {s : State} (h : ¬(s.largeScreen = false ∧ n.toNat % 2 = 1)) :
    exec (.scd n) s = .next (completed (showFrame (scrollDown n.toNat s.scr) s)) := if_neg h

theorem exec_drw16_of_high {x y : Reg} {s : State} (h : s.largeScreen = true) :
    exec (.drw16 x y) s = .next (completed (drawPixels (drw16Pixels x y s) s)) := if_pos h

theorem exec_drw16_of_low {x y : Reg} {s : State} (h : s.largeScreen = false) :
    exec (.drw16 x y) s = .next (completed (s.setV vF 0)) := if_neg (by rw [h]; exact Bool.false_ne_true)

/-- Settles O46. -/
theorem scrollDownOrFault : Obligations.ScrollDownOrFault := by
  unfold Obligations.ScrollDownOrFault
  intro n s
  constructor
  · intro even
    have complete : ¬(s.largeScreen = false ∧ n.toNat % 2 = 1) := by
      rintro ⟨low, odd⟩
      obtain high | even := even
      · exact Bool.noConfusion (low.symm.trans high)
      · omega
    refine ⟨_, exec_scd_of_even complete, fun r q c hr => ?_, fun r c hr => ?_, rfl⟩
    · refine (pixelAt_scrollDown n.toNat s.scr r c).trans ?_
      rw [if_pos (by omega)]
      congr 2
      exact Fin.ext (by simp only; omega)
    · exact (pixelAt_scrollDown n.toNat s.scr r c).trans (if_neg (by omega))
  · intro low odd
    exact exec_scd_of_odd ⟨low, odd⟩

/-- Settles O47. -/
theorem sidewaysScrollsMoveFourColumns : Obligations.SidewaysScrollsMoveFourColumns := by
  unfold Obligations.SidewaysScrollsMoveFourColumns
  intro s
  constructor
  · refine ⟨_, rfl, fun r c d hc => ?_, fun r c hc => ?_, rfl⟩
    · refine (pixelAt_scrollRight 4 s.scr r c).trans ?_
      rw [if_pos (by omega)]
      congr 2
      exact Fin.ext (by simp only; omega)
    · exact (pixelAt_scrollRight 4 s.scr r c).trans (if_neg (by omega))
  · refine ⟨_, rfl, fun r c d hd => ?_, fun r c hc => ?_, rfl⟩
    · refine (pixelAt_scrollLeft 4 s.scr r c).trans ?_
      rw [dif_pos (by omega)]
      congr 2
      exact Fin.ext hd.symm
    · exact (pixelAt_scrollLeft 4 s.scr r c).trans (dif_neg (by omega))

/-! ### No pixel twice (R271) -/

/-- A pixel of the blocks of two sprite bits at most 16 rows and 16 columns apart: they are one bit (R260, R271). -/
theorem InBlock.unique {large : Bool} {y x r c r' c' : Nat} {p : Pixel} (hr : r < 16) (hc : c < 16) (hr' : r' < 16)
    (hc' : c' < 16) (h : InBlock large (y + r) (x + c) p) (h' : InBlock large (y + r') (x + c') p) :
    r = r' ∧ c = c' := by
  cases large <;> simp only [InBlock, if_true, Bool.false_eq_true, if_false] at h h' <;> omega

theorem nodup_plotHigh (vx vy : Byte) (r c : Nat) : (plotHigh vx vy r c).Nodup := List.nodup_singleton _

/-- The four pixels of a block are different (R260). -/
theorem nodup_plotLow (vx vy : Byte) (r c : Nat) : (plotLow vx vy r c).Nodup := by
  simp [plotLow, Prod.ext_iff, Fin.ext_iff]
  omega

/-- A sprite of at most 16 rows and 16 columns plots different pixels for different bits, so none is toggled twice. -/
theorem nodup_spritePixels {w n x y : Nat} {large : Bool} {row : Nat → BitVec w} {plot : Nat → Nat → List Pixel}
    (hn : n ≤ 16) (hw : w ≤ 16) (nodup : ∀ r c, (plot r c).Nodup)
    (block : ∀ r c p, p ∈ plot r c → InBlock large (y + r) (x + c) p) : (spritePixels n row plot).Nodup := by
  have plotted {r c : Nat} {p : Pixel} (h : p ∈ if (row r).getLsbD (w - 1 - c) then plot r c else []) :
      InBlock large (y + r) (x + c) p := by
    split at h
    · exact block r c p h
    · cases h
  refine List.nodup_flatMap.mpr ⟨fun r hr => List.nodup_flatMap.mpr ⟨fun c hc => ?_, ?_⟩, ?_⟩
  · split
    · exact nodup r c
    · exact List.nodup_nil
  · refine List.nodup_range.pairwise_of_forall_ne fun c hc c' hc' hne => ?_
    intro p hp hp'
    simp only [List.mem_range] at hr hc hc'
    exact hne (InBlock.unique (by omega) (by omega) (by omega) (by omega) (plotted hp) (plotted hp')).2
  · refine List.nodup_range.pairwise_of_forall_ne fun r hr r' hr' hne => ?_
    intro p hp hp'
    obtain ⟨c, hc, hp⟩ := List.mem_flatMap.mp hp
    obtain ⟨c', hc', hp'⟩ := List.mem_flatMap.mp hp'
    simp only [List.mem_range] at hr hr' hc hc'
    exact hne (InBlock.unique (by omega) (by omega) (by omega) (by omega) (plotted hp) (plotted hp')).1

/-- Settles O51. -/
theorem drawTogglesNoPixelTwice : Obligations.DrawTogglesNoPixelTwice := by
  unfold Obligations.DrawTogglesNoPixelTwice
  intro x y n s
  have hn := n.isLt
  constructor
  · cases hl : s.largeScreen <;> simp only [drwPixels, hl, if_true, Bool.false_eq_true, if_false]
    · exact nodup_spritePixels (by omega) (by decide) (nodup_plotLow _ _) fun _ _ _ => mem_plotLow.mp
    · exact nodup_spritePixels (by omega) (by decide) (nodup_plotHigh _ _) fun _ _ _ => mem_plotHigh.mp
  · exact nodup_spritePixels (by decide) (by decide) (nodup_plotHigh _ _) fun _ _ _ => mem_plotHigh.mp

/-! ### What a draw leaves -/

/-- A draw of different pixels leaves what `Draws` says of exactly those pixels (R261, R268 to R271). -/
theorem draws_drawPixels {ps : List Pixel} {cov : Pixel → Prop} {s : State} (nodup : ps.Nodup)
    (covered : ∀ p, p ∈ ps ↔ cov p) : Draws cov s (completed (drawPixels ps s)) := by
  have flag : (completed (drawPixels ps s)).getV vF = collisionFlag (ps.any fun p => pixelAt s.scr p) := by
    rw [completed_getV, drawPixels_getV, if_pos rfl, xorPixels_collided nodup]
  have hit : (ps.any fun p => pixelAt s.scr p) = true ↔ ∃ p, cov p ∧ pixelAt s.scr p = true := by
    simp only [List.any_eq_true, covered]
  refine ⟨fun p hp => ?_, fun p hp => ?_, fun h => ?_, fun h => ?_, fun r hr => ?_, rfl⟩
  · rw [completed_scr, drawPixels_scr, pixelAt_xorPixels nodup, decide_eq_true ((covered p).mpr hp), Bool.xor_true]
  · rw [completed_scr, drawPixels_scr, pixelAt_xorPixels nodup, decide_eq_false (mt (covered p).mp hp), Bool.xor_false]
  · rw [flag, hit.mpr h]
    rfl
  · rw [flag, Bool.eq_false_iff.mpr (mt hit.mp h)]
    rfl
  · rw [completed_getV, drawPixels_getV, if_neg hr.symm]

/-- Settles O49. -/
theorem drawInvertsTheCoveredPixels : Obligations.DrawInvertsTheCoveredPixels := by
  unfold Obligations.DrawInvertsTheCoveredPixels
  intro x y n s _
  exact ⟨_, rfl, draws_drawPixels (drawTogglesNoPixelTwice x y n s).1 fun _ => mem_drwPixels⟩

/-- Settles O50: in low resolution the draw is a write of `V[F]` alone (C6). -/
theorem wideDrawInHighResolutionOnly : Obligations.WideDrawInHighResolutionOnly := by
  unfold Obligations.WideDrawInHighResolutionOnly
  intro x y s
  constructor
  · intro high
    exact ⟨_, exec_drw16_of_high high, draws_drawPixels (drawTogglesNoPixelTwice x y 0 s).2 fun _ => mem_drw16Pixels⟩
  · intro low
    exact ⟨_, exec_drw16_of_low low, completed_setV_frame s vF 0⟩

/-! ### Drawing twice (R272) -/

/-- Two draws over the same pixels, the second from the buffer the first left: each covered pixel is inverted twice, and
the second sees it set exactly when it was clear at first (R271). -/
theorem draws_twice {cov : Pixel → Prop} {s t u w : State} (hu : u.scr = t.scr) (first : Draws cov s t)
    (second : Draws cov u w) : w.scr = s.scr ∧ ((∃ p, cov p ∧ pixelAt s.scr p = false) → w.getV vF = 1) ∧
      ((¬∃ p, cov p ∧ pixelAt s.scr p = false) → w.getV vF = 0) := by
  obtain ⟨inverted, kept, -⟩ := first
  obtain ⟨inverted', kept', hit, miss, -⟩ := second
  rw [hu] at inverted' kept' hit miss
  have seen : (∃ p, cov p ∧ pixelAt t.scr p = true) ↔ ∃ p, cov p ∧ pixelAt s.scr p = false := by
    refine exists_congr fun p => and_congr_right fun hp => ?_
    rw [inverted p hp, Bool.not_eq_true']
  refine ⟨screen_ext fun p => ?_, fun h => hit (seen.mpr h), fun h => miss (mt seen.mp h)⟩
  by_cases hp : cov p
  · rw [inverted' p hp, inverted p hp, Bool.not_not]
  · rw [kept' p hp, kept p hp]

/-- The pixels of Dxyn are fixed by the coordinates, the mode and the bytes of its rows (R268). -/
theorem covers8_congr {s u : State} {x y : Reg} {n : Nat} (hx : u.getV x = s.getV x) (hy : u.getV y = s.getV y)
    (hl : u.largeScreen = s.largeScreen) (hb : ∀ r < n, byteAt u r = byteAt s r) : Covers8 u x y n = Covers8 s x y n := by
  funext p
  refine propext (exists_congr fun r => and_congr_right fun hr => ?_)
  rw [hb r hr, hx, hy, hl]

/-- The pixels of Dxy0 are fixed by the coordinates and its 32 bytes (R269). -/
theorem covers16_congr {s u : State} {x y : Reg} (hx : u.getV x = s.getV x) (hy : u.getV y = s.getV y)
    (hb : ∀ r < 32, byteAt u r = byteAt s r) : Covers16 u x y = Covers16 s x y := by
  funext p
  refine propext (exists_congr fun r => and_congr_right fun hr => ?_)
  simp only [bit16, hb (2 * r) (by omega), hb (2 * r + 1) (by omega), hx, hy]

/-- Settles O52: both draws invert the same pixels (O49, O50), so the second undoes the first. -/
theorem drawTwiceRestoresTheScreen : Obligations.DrawTwiceRestoresTheScreen := by
  unfold Obligations.DrawTwiceRestoresTheScreen
  intro x y s t u hu hx hy hl
  constructor
  · intro n hn ht hb
    obtain ⟨t', ht', first⟩ := drawInvertsTheCoveredPixels x y n s hn
    obtain ⟨w, hw, second⟩ := drawInvertsTheCoveredPixels x y n u hn
    cases ht.symm.trans ht'
    rw [covers8_congr hx hy hl hb] at second
    exact ⟨w, hw, draws_twice hu first second⟩
  · intro high ht hb
    obtain ⟨t', ht', first⟩ := (wideDrawInHighResolutionOnly x y s).1 high
    obtain ⟨w, hw, second⟩ := (wideDrawInHighResolutionOnly x y u).1 (hl.trans high)
    cases ht.symm.trans ht'
    rw [covers16_congr hx hy hb] at second
    exact ⟨w, hw, draws_twice hu first second⟩

end Sys2Proof.Machine
end

section
/-! PROOFS. What an instruction does not see (10_state R34 to R38, 44_timer_sound R233, 46_display R270 to R273): changing
such a field first and executing then is executing first and changing then. -/

namespace Sys2Proof.Machine

/-! ### Changing the next state of an answer -/

/-- The answer with its next state changed by `g`. -/
def mapNext (g : State → State) (r : Result) : Result :=
  match r with
  | .next t => .next (g t)
  | .fault f => .fault f
  | .refused f => .refused f

@[simp] theorem mapNext_next (g : State → State) (t : State) : mapNext g (.next t) = .next (g t) := rfl

theorem ite_mapNext {g : State → State} {c : Prop} [Decidable c] {r q r' q' : Result} (hr : r' = mapNext g r)
    (hq : q' = mapNext g q) : (if c then r' else q') = mapNext g (if c then r else q) := by
  rw [apply_ite (mapNext g), hr, hq]

/-- A checked store commutes with a change that its two ends, a fault and a completed store, commute with. -/
theorem storeOrRaise_comm {g : State → State} {cells : List Host.Cell} {after after' s : State}
    (stored : finish { after' with mem := Memory.writeCells (g s).mem cells } =
      mapNext g (finish { after with mem := Memory.writeCells s.mem cells }))
    (raised : ∀ a, raise (.reservedMemoryWrite (g s).pc a) (g s) = mapNext g (raise (.reservedMemoryWrite s.pc a) s)) :
    storeOrRaise cells after' (g s) = mapNext g (storeOrRaise cells after s) := by
  unfold storeOrRaise
  cases cells.find? _ with
  | none => exact stored
  | some c => exact raised c.1

/-- The load loop commutes with a change of neither registers nor the bytes from `I` on. -/
theorem loadBlock_comm {g : State → State} {s : State} (x : Reg) (set : ∀ t r b, (g t).setV r b = g (t.setV r b))
    (bytes : byteAt (g s) = byteAt s) : loadBlock (g s) x = g (loadBlock s x) := by
  unfold loadBlock
  rw [bytes]
  exact List.foldl_hom g fun t r => set t r (byteAt s r.val)

/-! ### The stack, the sound timer, the buffer and the events -/

/-- The instructions that read or write the frame buffer (R262 to R269). -/
def usesScreen (i : Instr) : Bool :=
  match i with
  | .cls | .scd _ | .scr | .scl | .drw _ _ _ | .drw16 _ _ => true
  | _ => false

section replace
variable (stk : Option (Vector Word 16 × Fin 17)) (snd : Option Byte) (scr : Option Screen) (evs : Option (List Event))

/-- The state with another stack and cursor, another `S`, another buffer, other events, each where one is given. -/
def State.replace (s : State) : State :=
  { s with
    stack := (stk.map Prod.fst).getD s.stack, depth := (stk.map Prod.snd).getD s.depth
    sound := snd.getD s.sound, scr := scr.getD s.scr, events := evs.getD s.events }

variable {stk snd scr evs}

/-- An instruction sees none of the four but those it uses: CALL and RET the stack, Fx18 `S` and the events, the display
instructions the buffer and the events (R135, R233, R270, R273). -/
theorem exec_replace {i : Instr} (hcall : ∀ a, i = .call a → stk = none) (hret : i = .ret → stk = none)
    (hst : ∀ x, i = .ldStVx x → snd = none ∧ evs = none) (hscreen : usesScreen i = true → scr = none ∧ evs = none)
    (s : State) : exec i (s.replace stk snd scr evs) = mapNext (State.replace stk snd scr evs) (exec i s) := by
  cases i
  case call nnn =>
    obtain rfl := hcall nnn rfl
    obtain ⟨room, -⟩ | ⟨full, -⟩ := push_cases s.pc s
    · rw [exec_call_of_room nnn s room]
      exact exec_call_of_room nnn (s.replace none snd scr evs) room
    · rw [exec_call_of_full nnn s full]
      exact exec_call_of_full nnn (s.replace none snd scr evs) full
  case ret =>
    obtain rfl := hret rfl
    obtain ⟨k, -, held, -, -⟩ | ⟨empty, -⟩ := pop_cases s
    · rw [exec_ret_of_entry held]
      exact exec_ret_of_entry (s := s.replace none snd scr evs) held
    · rw [exec_ret_of_empty empty]
      exact exec_ret_of_empty (s := s.replace none snd scr evs) empty
  case ldStVx x =>
    obtain ⟨rfl, rfl⟩ := hst x rfl
    rfl
  case cls | scr | scl | drw =>
    obtain ⟨rfl, rfl⟩ := hscreen rfl
    rfl
  case scd n =>
    obtain ⟨rfl, rfl⟩ := hscreen rfl
    exact ite_mapNext (c := s.largeScreen = false ∧ n.toNat % 2 = 1) rfl rfl
  case drw16 x y =>
    obtain ⟨rfl, rfl⟩ := hscreen rfl
    exact ite_mapNext (c := s.largeScreen = true) rfl rfl
  case ldHf x => exact ite_mapNext (c := 9 < (s.getV x).toNat) rfl rfl
  case ldRV x =>
    have loop : saveFlagBlock (s.replace stk snd scr evs) x = (saveFlagBlock s x).replace stk snd scr evs :=
      List.foldl_hom (State.replace stk snd scr evs) fun _ _ => rfl
    exact ite_mapNext (c := 7 < x.val) rfl (congrArg finish loop)
  case ldVR x =>
    have loop : restoreFlagBlock (s.replace stk snd scr evs) x = (restoreFlagBlock s x).replace stk snd scr evs :=
      List.foldl_hom (State.replace stk snd scr evs) fun _ _ => rfl
    exact ite_mapNext (c := 7 < x.val) rfl (congrArg finish loop)
  case ldVxK x =>
    have same : (s.replace stk snd scr evs).waitKey = s.waitKey := rfl
    simp only [exec, execLdVxK, same]
    cases s.waitKey <;> rfl
  case ldB x => exact storeOrRaise_comm rfl fun _ => rfl
  case ldMemV x => exact storeOrRaise_comm rfl fun _ => rfl
  case ldVMem x =>
    simp only [exec, execLdVMem, loadBlock_comm (g := State.replace stk snd scr evs) x (fun _ _ _ => rfl) rfl]
    rfl
  all_goals rfl

end replace

/-- Settles O56: the stack is not seen (`exec_replace`), and put back as it was it is left as it was. -/
theorem onlyCallAndReturnUseTheStack : Obligations.OnlyCallAndReturnUseTheStack := by
  unfold Obligations.OnlyCallAndReturnUseTheStack
  intro i s t h hcall hret
  have unseen (stack : Vector Word 16) (depth : Fin 17) :
      exec i { s with stack := stack, depth := depth } = .next { t with stack := stack, depth := depth } := by
    have := exec_replace (stk := some (stack, depth)) (snd := none) (scr := none) (evs := none)
      (fun a ha => absurd ha (hcall a)) (fun hr => absurd hr hret) (fun _ _ => ⟨rfl, rfl⟩) (fun _ => ⟨rfl, rfl⟩) s
    rwa [h] at this
  have own : t = { t with stack := s.stack, depth := s.depth } :=
    Host.Outcome.next.inj (h.symm.trans (unseen s.stack s.depth))
  exact ⟨(congrArg State.stack own :), (congrArg State.depth own :), unseen⟩

/-- Settles O58: Fx18 writes over `S` without reading it, and the others do not see it (`exec_replace`). -/
theorem noInstructionReadsTheSoundTimer : Obligations.NoInstructionReadsTheSoundTimer := by
  unfold Obligations.NoInstructionReadsTheSoundTimer
  intro i s t a h
  split
  · cases h
    rfl
  · rename_i other
    have := exec_replace (stk := none) (snd := some a) (scr := none) (evs := none)
      (fun _ _ => rfl) (fun _ => rfl) (fun x hx => absurd hx (other x)) (fun _ => ⟨rfl, rfl⟩) s
    rwa [h] at this

/-- Settles O59: an instruction that does not use the buffer does not see it (`exec_replace`); the scrolls write it, and a
draw also writes `V[F]`. -/
theorem screenIsSeenByCollisionOnly : Obligations.ScreenIsSeenByCollisionOnly := by
  unfold Obligations.ScreenIsSeenByCollisionOnly
  intro i s t a h
  cases uses : usesScreen i
  case false =>
    have := exec_replace (stk := none) (snd := none) (scr := some a) (evs := none)
      (fun _ _ => rfl) (fun _ => rfl) (fun _ _ => ⟨rfl, rfl⟩) (fun hu => by rw [uses] at hu; cases hu) s
    rw [h] at this
    exact ⟨_, this, fun _ _ => rfl, fun _ _ => rfl, rfl⟩
  case true =>
    cases i <;> cases uses
    case cls | scr | scl => cases h; exact ⟨_, rfl, fun _ _ => rfl, fun _ _ => rfl, rfl⟩
    case drw x y n =>
      cases h
      refine ⟨_, rfl, fun r hr => ?_, fun hd => absurd rfl (hd x y n), rfl⟩
      simp only [completed_getV, drawPixels_getV, if_neg hr.symm]
      rfl
    case scd n =>
      by_cases odd : s.largeScreen = false ∧ n.toNat % 2 = 1
      · cases (exec_scd_of_odd odd).symm.trans h
        exact ⟨_, exec_scd_of_odd odd, fun _ _ => rfl, fun _ _ => rfl, rfl⟩
      · cases (exec_scd_of_even odd).symm.trans h
        exact ⟨_, exec_scd_of_even odd, fun _ _ => rfl, fun _ _ => rfl, rfl⟩
    case drw16 x y =>
      obtain high | low := Bool.eq_false_or_eq_true s.largeScreen
      case inr =>
        cases (exec_drw16_of_low low).symm.trans h
        exact ⟨_, exec_drw16_of_low low, fun _ _ => rfl, fun _ _ => rfl, rfl⟩
      case inl =>
        cases (exec_drw16_of_high high).symm.trans h
        refine ⟨_, exec_drw16_of_high high, fun r hr => ?_, fun _ hd => absurd rfl (hd x y), rfl⟩
        simp only [completed_getV, drawPixels_getV, if_neg hr.symm]
        rfl

/-! ### Events -/

/-- The events an instruction adds, by the table of R270 and R310 (decisions D17, D18). -/
def tabledEvents (i : Instr) (s t : State) : List Event :=
  match i with
  | .cls | .scr | .scl | .drw _ _ _ => [.frame t.scr]
  | .drw16 _ _ => if s.largeScreen then [.frame t.scr] else []
  | .scd n => if s.largeScreen = false ∧ n.toNat % 2 = 1 then [] else [.frame t.scr]
  | .ldStVx x => [.sound (s.getV x != 0)]
  | _ => []

/-- An instruction other than Fx18 and the display instructions adds no event: it does not see the events
(`exec_replace`), so it puts back those it is given. -/
theorem exec_events_silent {i : Instr} {s t : State} (h : exec i s = .next t) (hst : ∀ x, i ≠ .ldStVx x)
    (hscreen : usesScreen i = false) : t.events = s.events := by
  have := exec_replace (stk := none) (snd := none) (scr := none) (evs := some s.events)
    (fun _ _ => rfl) (fun _ => rfl) (fun x hx => absurd hx (hst x)) (fun hu => by rw [hscreen] at hu; cases hu) s
  have own : t = { t with events := s.events } := Host.Outcome.next.inj (h.symm.trans (this.trans (by rw [h]; rfl)))
  exact (congrArg State.events own :)

/-- An instruction adds the events of the table, for every instruction. -/
theorem exec_events {i : Instr} {s t : State} (h : exec i s = .next t) : t.events = s.events ++ tabledEvents i s t := by
  cases i
  case cls | scr | scl | drw | ldStVx => cases h; rfl
  case scd n =>
    by_cases odd : s.largeScreen = false ∧ n.toNat % 2 = 1
    · cases (exec_scd_of_odd odd).symm.trans h
      simp only [tabledEvents, if_pos odd, List.append_nil]
    · cases (exec_scd_of_even odd).symm.trans h
      simp only [tabledEvents, if_neg odd, completed_events, showFrame_events, completed_scr, showFrame_scr]
  case drw16 x y =>
    cases hl : s.largeScreen
    · cases (exec_drw16_of_low hl).symm.trans h
      simp only [tabledEvents, hl, Bool.false_eq_true, if_false, List.append_nil, completed_events, State.setV_events]
    · cases (exec_drw16_of_high hl).symm.trans h
      simp only [tabledEvents, hl, if_true, completed_events, drawPixels_events, completed_scr, drawPixels_scr]
  all_goals exact (exec_events_silent h (fun _ => Instr.noConfusion) rfl).trans (List.append_nil _).symm

/-- Settles O57: the three clauses are the rows of the table. -/
theorem eventsAreThoseTabled : Obligations.EventsAreThoseTabled := by
  unfold Obligations.EventsAreThoseTabled
  intro i s t h
  rw [exec_events h]
  refine ⟨fun frame => ?_, fun x hx => ?_, fun hcls hscr hscl hdrw hwide hscd hst => ?_⟩
  · obtain rfl | rfl | rfl | ⟨x, y, n, rfl⟩ | ⟨⟨x, y, rfl⟩, high⟩ | ⟨n, rfl, even⟩ := frame
    iterate 4 · rfl
    · rw [tabledEvents, if_pos high]
    · rw [tabledEvents, if_neg]
      rintro ⟨low, odd⟩
      obtain high | even := even
      · exact Bool.noConfusion (low.symm.trans high)
      · omega
  · subst hx
    rfl
  · have silent : tabledEvents i s t = [] := by
      unfold tabledEvents
      split
      · exact absurd rfl hcls
      · exact absurd rfl hscr
      · exact absurd rfl hscl
      · exact absurd rfl (hdrw _ _ _)
      · rw [hwide ⟨_, _, rfl⟩]
        rfl
      · rw [if_pos (hscd _ rfl)]
      · exact absurd rfl (hst _)
      · rfl
    rw [silent, List.append_nil]

/-! ### The address register modulo 4096 -/

/-- The state with `I` larger by `4096 * k`, mod 65536. -/
def State.bumpI (k : Word) (s : State) : State := { s with i := s.i + 4096 * k }

section bumpI
variable (k : Word) (s : State)

theorem toNat_bumpI_mod : (s.bumpI k).i.toNat % 4096 = s.i.toNat % 4096 := by
  simp only [State.bumpI]
  bv_omega

/-- Data addresses are taken mod 4096 (R78, D6). -/
theorem ea_bumpI : ea (s.bumpI k) = ea s := by
  funext j
  have := toNat_bumpI_mod k s
  simp only [ea, Config.memSize]
  omega

theorem byteAt_bumpI : byteAt (s.bumpI k) = byteAt s := by
  funext j
  rw [byteAt, ea_bumpI]
  rfl

theorem decimalCells_bumpI (b : Byte) : decimalCells (s.bumpI k) b = decimalCells s b := by
  rw [decimalCells, ea_bumpI]
  rfl

theorem blockCells_bumpI (x : Reg) : blockCells (s.bumpI k) x = blockCells s x := by
  rw [blockCells, ea_bumpI]
  rfl

theorem drwPixels_bumpI (x y : Reg) (n : Nibble) : drwPixels x y n (s.bumpI k) = drwPixels x y n s := by
  rw [drwPixels, byteAt_bumpI]
  rfl

theorem drw16Pixels_bumpI (x y : Reg) : drw16Pixels x y (s.bumpI k) = drw16Pixels x y s := by
  rw [drw16Pixels, byteAt_bumpI]
  rfl

theorem blockAdvancedI_bumpI (x : Reg) : blockAdvancedI (s.bumpI k) x = blockAdvancedI s x + 4096 * k := by
  cases super : s.superMode <;> simp only [blockAdvancedI, State.bumpI, super, if_true, Bool.false_eq_true, if_false]
  exact add_right_comm _ _ _

/-- Run with `I` larger by `4096 * k` an instruction does the same, and leaves `I` larger by as much, or writes over `I`
and leaves all as it would have. -/
theorem exec_bumpI (i : Instr) :
    exec i (s.bumpI k) = mapNext (State.bumpI k) (exec i s) ∨ exec i (s.bumpI k) = exec i s := by
  cases i
  case ldI | ldF => exact .inr rfl
  case ldHf x =>
    by_cases large : 9 < (s.getV x).toNat
    · have raised (u : State) (hu : 9 < (u.getV x).toNat) :
          exec (.ldHf x) u = raise (.invalidGlyphIndex u.pc (u.getV x)) u := if_pos hu
      rw [raised s large]
      exact .inl (raised (s.bumpI k) large)
    · have points (u : State) (hu : ¬9 < (u.getV x).toNat) :
          exec (.ldHf x) u = finish { u with i := largeGlyph (u.getV x) } := if_neg hu
      rw [points s large]
      exact .inr (points (s.bumpI k) large)
  case addI x =>
    have sum : s.i + 4096 * k + zext16 (s.getV x) = s.i + zext16 (s.getV x) + 4096 * k := add_right_comm _ _ _
    exact .inl (congrArg (fun i => finish { s with i := i }) sum)
  case call nnn =>
    left
    obtain ⟨room, -⟩ | ⟨full, -⟩ := push_cases s.pc s
    · rw [exec_call_of_room nnn s room]
      exact exec_call_of_room nnn (s.bumpI k) room
    · rw [exec_call_of_full nnn s full]
      exact exec_call_of_full nnn (s.bumpI k) full
  case ret =>
    left
    obtain ⟨j, -, held, -, -⟩ | ⟨empty, -⟩ := pop_cases s
    · rw [exec_ret_of_entry held]
      exact exec_ret_of_entry (s := s.bumpI k) held
    · rw [exec_ret_of_empty empty]
      exact exec_ret_of_empty (s := s.bumpI k) empty
  case scd n => exact .inl (ite_mapNext (c := s.largeScreen = false ∧ n.toNat % 2 = 1) rfl rfl)
  case drw x y n =>
    left
    simp only [exec, execDrw, drwPixels_bumpI]
    rfl
  case drw16 x y =>
    refine .inl (ite_mapNext (c := s.largeScreen = true) ?_ rfl)
    rw [drw16Pixels_bumpI]
    rfl
  case ldRV x =>
    have loop : saveFlagBlock (s.bumpI k) x = (saveFlagBlock s x).bumpI k :=
      List.foldl_hom (State.bumpI k) fun _ _ => rfl
    exact .inl (ite_mapNext (c := 7 < x.val) rfl (congrArg finish loop))
  case ldVR x =>
    have loop : restoreFlagBlock (s.bumpI k) x = (restoreFlagBlock s x).bumpI k :=
      List.foldl_hom (State.bumpI k) fun _ _ => rfl
    exact .inl (ite_mapNext (c := 7 < x.val) rfl (congrArg finish loop))
  case ldVxK x =>
    have same : (s.bumpI k).waitKey = s.waitKey := rfl
    simp only [exec, execLdVxK, same]
    cases s.waitKey <;> exact .inl rfl
  case ldB x =>
    left
    simp only [exec, execLdB, decimalCells_bumpI]
    exact storeOrRaise_comm rfl fun _ => rfl
  case ldMemV x =>
    left
    simp only [exec, execLdMemV, blockCells_bumpI, blockAdvancedI_bumpI]
    exact storeOrRaise_comm rfl fun _ => rfl
  case ldVMem x =>
    left
    simp only [exec, execLdVMem, blockAdvancedI_bumpI,
      loadBlock_comm (g := State.bumpI k) x (fun _ _ _ => rfl) (byteAt_bumpI k s)]
    rfl
  all_goals exact .inl rfl

end bumpI

/-- Settles O60. -/
theorem addressRegisterIsSeenModulo4096 : Obligations.AddressRegisterIsSeenModulo4096 := by
  unfold Obligations.AddressRegisterIsSeenModulo4096
  intro i s t k h
  obtain same | same := exec_bumpI k s i
  · rw [h] at same
    exact ⟨t.bumpI k, same, toNat_bumpI_mod k t, rfl⟩
  · exact ⟨t, same.trans h, rfl, rfl⟩

end Sys2Proof.Machine
end
